-- ==== Sys2Proof/Word.lean ====
section
/-! DEFINITION. The words of the pulse-interval scheduler: unsigned values of the launch's width `W` (spec/00_scope.md
R9, R11). `W` is a parameter of a launch, so a word is held as the number it stands for, below `2^W`; log 1. -/

namespace Sys2Proof

/-- `v[w−1:0]`, the low `w` bits of `v` as an unsigned number (R11). -/
def lowBits (w v : Nat) : Nat := v % 2 ^ w

end Sys2Proof
end

