-- ==== Sys2Proof/Config.lean ====
section
/-! DEFINITION. The implementation parameters of spec/00_scope.md R9, and the values the spec leaves open as
constants without a body. -/

namespace Sys2Proof

/-- `PLATFORM_BYTE_ORDER` (R9, R45): read by no rule of the block. -/
inductive ByteOrder where
  | bigEndian
  | littleEndian
deriving DecidableEq, Repr, Inhabited

/-- The parameters a launch of the block takes (R9); `CW` follows from `N` (`Machine.cursorWidth`), `L_k` is what the
schedule and `State.handler` say, `PIN_INIT` and `MF_RESET` stand in `Machine.Launch`. -/
structure Config where
  /-- `W` (REG_WIDTH): the width in bits of the counter, the compare register, `LAST`, the adder and each entry. -/
  regWidth : Nat
  /-- `N` (TABLE_LEN). -/
  tableLen : Nat
  /-- `T[0..N-1]` (TABLE), in ticks; R10 bounds the entries. -/
  table : List Nat
  /-- `TICK_RATE`, ticks per microsecond; converts tick counts to times only (R156). DESIGN CHOICE: a whole number;
  the spec gives the value 2 and no set of values; log 22. -/
  tickRate : Nat
  /-- `MATCH_ON_WRITE` (R153): whether a compare write equal to the counter matches at once. -/
  matchOnWrite : Bool
  /-- `PLATFORM_BYTE_ORDER` (R45). -/
  byteOrder : ByteOrder
deriving DecidableEq, Repr

/-- One full period of the free-running counter, `2^W` ticks (R150). -/
def Config.period (cfg : Config) : Nat := 2 ^ cfg.regWidth

/-- The open parameter `MATCH_ON_WRITE` of this hardware: OPEN in R9, R153 and D24; log 3. -/
opaque Config.openMatchOnWrite : Bool

/-- The open parameter `PLATFORM_BYTE_ORDER` of this hardware: OPEN in R9 and D19; log 3. -/
opaque Config.openByteOrder : ByteOrder

/-- The table of R84. -/
def Config.exampleTable : List Nat :=
  [1000, 1000, 1000, 2000, 2000, 10000, 200, 1000, 10000, 2000, 200, 200]

/-- The "value" column of R9: what this hardware takes. PRESUMED: the spec itself takes `W = 16` from general
knowledge (D2); log 1. -/
def Config.hardware : Config where
  regWidth := 16
  tableLen := 12
  table := Config.exampleTable
  tickRate := 2
  matchOnWrite := Config.openMatchOnWrite
  byteOrder := Config.openByteOrder

end Sys2Proof
end

