-- ==== Sys2Proof/Syntax.lean ====
section
/-! DEFINITION. The six commands of spec/30_encoding.md R62, one constructor per row of spec/opcode_table.json. -/

namespace Sys2Proof

/-- A command of the block. ARM carries its two `W`-bit operands (R63); the other five carry nothing (R62, R65). -/
inductive Instr where
  | nop
  | arm (now lead : Nat)
  | edge
  | sigclr
  | sigrd
  | sigrc
deriving DecidableEq, Repr

end Sys2Proof
end

