-- ==== Sys2Proof/WellFormed.lean ====
section
/-! DEFINITION. What is well formed: a configuration (spec/00_scope.md R10) and a command (spec/30_encoding.md R63). -/

namespace Sys2Proof

/-- A legal table entry: `1 ≤ T[i] ≤ 2^W − 1` (R10). -/
def Config.entryOk (cfg : Config) (e : Nat) : Bool := decide (1 ≤ e) && decide (e ≤ 2 ^ cfg.regWidth - 1)

/-- R10: `W ≥ 1`, `N ≥ 1`, `T` has exactly `N` entries, every entry legal. -/
def Config.wf (cfg : Config) : Bool :=
  decide (1 ≤ cfg.regWidth) && decide (1 ≤ cfg.tableLen) && decide (cfg.table.length = cfg.tableLen)
    && cfg.table.all cfg.entryOk

/-- A command at the width `w`: ARM's operands are `w`-bit values, every one of them legal (R63, D33); no other
command has an operand. -/
def Instr.wf (w : Nat) : Instr → Bool
  | .nop => true
  | .arm now lead => decide (now < 2 ^ w) && decide (lead < 2 ^ w)
  | .edge => true
  | .sigclr => true
  | .sigrd => true
  | .sigrc => true

end Sys2Proof
end

