-- ==== Sys2Proof/Decode.lean ====
section
/-! DEFINITION. Decoding a presented command word (spec/30_encoding.md R60, R63, R66) and encoding a command (R62). -/

namespace Sys2Proof

/-- What a command transaction presents: `cmd_i`, `opa_i`, `opb_i` (R32, R60); the operand ports as numbers, of which
ARM takes the low `W` bits (R63). -/
structure Command where
  cmd : BitVec 8
  opa : Nat
  opb : Nat
deriving DecidableEq, Repr

/-- Why a word is no command (R66), named as the faults it raises. -/
inductive Reject where
  /-- `RSV ≠ 000` or `OP` in 6 .. 15. -/
  | reservedCmd
  /-- EDGE with `CTX = 0`, or a foreground command with `CTX = 1`. -/
  | context
deriving DecidableEq, Repr

/-- The verdict on a command word (R67). -/
inductive Verdict where
  | command (i : Instr)
  | reject (r : Reject)
deriving DecidableEq, Repr

/-- `CTX`, bit 7 of the word (R60). -/
def ctxField (w : BitVec 8) : Bool := w.getLsbD 7

/-- `RSV`, bits 6:4 of the word (R60). -/
def rsvField (w : BitVec 8) : BitVec 3 := w.extractLsb' 4 3

/-- `OP`, bits 3:0 of the word (R60). -/
def opField (w : BitVec 8) : BitVec 4 := w.extractLsb' 0 4

/-- R66 step 3: the command selected by `OP`; ARM takes `opa_i[W−1:0]` and `opb_i[W−1:0]`, `w` being `W` (R63), and no
other command reads them. -/
def selectCommand (w : Nat) (c : Command) : Verdict :=
  match (opField c.cmd).toNat with
  | 0 => .command .nop
  | 1 => .command (.arm (lowBits w c.opa) (lowBits w c.opb))
  | 2 => .command .edge
  | 3 => .command .sigclr
  | 4 => .command .sigrd
  | 5 => .command .sigrc
  | _ => .reject .reservedCmd

/-- Decoding at the width `w`, total over all 256 words, its checks in the order of R66. -/
def decode (w : Nat) (c : Command) : Verdict :=
  if rsvField c.cmd ≠ 0 ∨ 6 ≤ (opField c.cmd).toNat then .reject .reservedCmd
  else if (opField c.cmd == 2) != ctxField c.cmd then .reject .context
  else selectCommand w c

/-- The command word of each command (R62). -/
def Instr.word : Instr → BitVec 8
  | .nop => 0x00
  | .arm _ _ => 0x01
  | .edge => 0x82
  | .sigclr => 0x03
  | .sigrd => 0x04
  | .sigrc => 0x05

/-- The transaction that presents a command (R62, R63); a command without operands presents zeros, which it ignores.
-/
def encode : Instr → Command
  | .nop => ⟨Instr.word .nop, 0, 0⟩
  | .arm now lead => ⟨Instr.word (.arm now lead), now, lead⟩
  | .edge => ⟨Instr.word .edge, 0, 0⟩
  | .sigclr => ⟨Instr.word .sigclr, 0, 0⟩
  | .sigrd => ⟨Instr.word .sigrd, 0, 0⟩
  | .sigrc => ⟨Instr.word .sigrc, 0, 0⟩

/-- The command a verdict gives, if it is one. -/
def Verdict.instr? : Verdict → Option Instr
  | .command i => some i
  | .reject _ => none

/-- The transaction of a table row's word: the low eight bits of `w` (R60: every command is one 8-bit word), with
zeros on the operand ports, which the table gives no bits. -/
def tableCommand (nbits w : Nat) : Command := ⟨BitVec.ofNat 8 (w % 2 ^ nbits), 0, 0⟩

/-- What this hardware's decoder reads from the word of an opcode-table row. -/
def decodeTableWord (nbits w : Nat) : Option Instr := (decode Config.hardware.regWidth (tableCommand nbits w)).instr?

end Sys2Proof
end

