-- ==== Sys2Proof/Machine/State.lean ====
section
/-! DEFINITION. The state of the scheduler block and of the platform it drives (spec/10_state.md), what the outside
world can do to it, and the state after reset (spec/70_reset_and_hazards.md R170, R171). -/

namespace Sys2Proof.Machine

/-- The scheduler's state machine (R24); `TRIGGERING` stands only inside one EDGE (R25). -/
inductive Fsm where
  | unarmed
  | armed
  | triggering
  | faulted
deriving DecidableEq, Repr

/-- The contents of `FAULT` (R26, R131). -/
inductive FaultCode where
  | noFault
  | reservedCmd
  | context
  | armTwice
  | armIrqEnabled
  | edgeUnarmed
deriving DecidableEq, Repr

/-- An event of the history `H` (R36). -/
inductive Event where
  /-- `CmpWritten(v)`: the block wrote the compare register. -/
  | cmpWritten (v : Nat)
  /-- `Acked`: the block acknowledged the match. -/
  | acked
  /-- `Signalled`: EDGE set `PEND`. -/
  | signalled
  /-- `Cleared`: the foreground cleared `PEND`. -/
  | cleared
  /-- `Read(b)`: a foreground read returned `b`. -/
  | read (b : Bool)
  /-- `Faulted(code, w)`: the command word `w` faulted with `code`. -/
  | faulted (code : FaultCode) (w : BitVec 8)
  /-- `Match`: the platform's compare match. -/
  | matched
  /-- `Toggle(level)`: the platform inverted the pin to `level`. -/
  | toggled (level : Bool)
deriving DecidableEq, Repr

/-- The block's input ports in one transaction (R32): `rst_i`, `cmd_valid_i`, and `cmd_i`, `opa_i`, `opb_i`. -/
structure PortCycle where
  rst : Bool
  cmdValid : Bool
  command : Command
deriving DecidableEq, Repr

/-- How many ticks pass inside an EDGE where it matters: between its acknowledge (step 1) and its compare write (step
4), and between that write and its signal (step 7). Open: the spec gives the handler no duration (R143, R152, D25). -/
structure HandlerTicks where
  toWrite : Nat
  toSignal : Nat
deriving DecidableEq, Repr

/-- One thing the outside world does. The spec leaves their order open (R140), so a state holds them as a schedule. -/
inductive Input where
  /-- One cycle of the block's ports: a reset, a command, or neither (R60, R61, R170). -/
  | cycle (p : PortCycle)
  /-- One tick of the free-running counter (R150). -/
  | tick
  /-- The platform may dispatch a pending compare match here (R140). -/
  | dispatch
  /-- `enable_interrupts()` (true) or `disable_interrupts()` (false) (R33). -/
  | setIe (on : Bool)
  /-- `enable_output_toggle_on_match()` (R33). -/
  | enableToggle
  /-- `install_interrupt_handler(vector_id, on_edge_triggered)` (R33). -/
  | installHandler
  /-- `acknowledge_match_flag()` performed by the platform itself at boot (R175 step 2). -/
  | ackMatchFlag
  /-- `read_free_running_counter()` (R175 step 3). -/
  | readCounter
  /-- How long the handler takes from here on: the per-edge draw of R152. -/
  | handler (h : HandlerTicks)
deriving DecidableEq, Repr

/-- The output ports as the latest transaction drove them (R32). `fsm_o` and `fault_o` follow `FSM` and `FAULT`. -/
structure Outputs where
  /-- `rdata_o`: it has a value only in SIGRD and SIGRC (R64). -/
  rdata : Option Bool
  /-- `cmp_wr_o` with `cmp_data_o`: the value written to `CMP`, if one was (R42). -/
  cmpWr : Option Nat
  /-- `ack_o`: whether the match was acknowledged (R43). -/
  ack : Bool
deriving DecidableEq, Repr

/-- No output driven. -/
def Outputs.idle : Outputs := ⟨none, none, false⟩

structure State where
  /-- The launch's parameters (R9), the Interval Table among them; nothing writes them (R30). -/
  cfg : Config
  /-- `FSM` (R24). -/
  fsm : Fsm
  /-- `CURSOR` (R21): an index, or no value, which is the spec's own reset value (R35); log 4. -/
  cursor : Option Nat
  /-- `LAST` (R22): a time, or no value, which is the spec's own reset value (R35); log 4. -/
  last : Option Nat
  /-- `PEND` (R23). -/
  pend : Bool
  /-- `FAULT` (R26). -/
  fault : FaultCode
  /-- `H` (R36), oldest event first. -/
  hist : List Event
  /-- `TCNT`, the platform's free-running counter (R33). -/
  tcnt : Nat
  /-- `CMP`, the platform's compare register (R33). -/
  cmp : Nat
  /-- `MF`, the platform's match flag (R33). -/
  mf : Bool
  /-- `PIN`, the platform's output pin (R33). -/
  pin : Bool
  /-- `IE`, the platform's global interrupt enable, seen by the block as `ie_i` (R32, R33). -/
  ie : Bool
  /-- `SRC_EN`, whether the compare-match source is bound and enabled (R33). -/
  srcEn : Bool
  /-- `TOGGLE_EN`, whether a match toggles the pin (R33). -/
  toggleEn : Bool
  /-- The output ports of the latest transaction (R32). -/
  out : Outputs
  /-- What the foreground last got from `read_free_running_counter()` (R175 step 3); the model's own field, log 7. -/
  counterRead : Option Nat
  /-- How long the next EDGEs take inside, an open value of the platform (R152); the model's own field, log 21. -/
  handler : HandlerTicks
  /-- What the outside world does next, first to happen first; the model's own field, log 7. -/
  inputs : List Input
deriving DecidableEq, Repr

/-- Why the machine stops: the spec gives the transaction no step. Safe: a run that stops proves nothing more. -/
inductive Fault where
  /-- A command in `FAULTED`: "In `FAULTED` no command has a step" (R130). Raised by every meaning and by a rejected
  word. Safe. -/
  | stuckInFaulted
  /-- A command in `TRIGGERING`, which no run shows between steps (R25). Raised by every meaning and by a rejected
  word. Safe. -/
  | noStepWhileTriggering
deriving DecidableEq, Repr

/-- Why a transaction has no meaning. -/
inductive Refusal where
  /-- The instruction named has no meaning yet. Raised by exec's arms only. Safe. -/
  | notModelled (mnemonic : String)
  /-- The configuration is ill formed: it has no run (R10, R134). Raised by step. Safe. -/
  | illFormedConfig
  /-- A table read at an index the table does not have (R40, R80); no run reaches it. Raised by EDGE. Safe. -/
  | tableIndexOutOfRange
deriving DecidableEq, Repr

/-- What the platform's own reset gives its state: a free input of the launch (R171). -/
structure Launch where
  tcnt : Nat
  cmp : Nat
  mf : Bool
  pin : Bool
  ie : Bool
  srcEn : Bool
  toggleEn : Bool
deriving DecidableEq, Repr

/-- The counter and the compare register hold `W`-bit values (R171). -/
def Launch.wf (cfg : Config) (l : Launch) : Bool := decide (l.tcnt < 2 ^ cfg.regWidth) && decide (l.cmp < 2 ^ cfg.regWidth)

/-- The block right after reset (R35, R170), in a launch with any configuration and platform state (R9, R171). -/
def State.launch (cfg : Config) (l : Launch) : State where
  cfg := cfg
  fsm := .unarmed
  cursor := none
  last := none
  pend := false
  fault := .noFault
  hist := []
  tcnt := l.tcnt
  cmp := l.cmp
  mf := l.mf
  pin := l.pin
  ie := l.ie
  srcEn := l.srcEn
  toggleEn := l.toggleEn
  out := Outputs.idle
  counterRead := none
  handler := ⟨0, 0⟩
  inputs := []

/-- The launch values of `State.reset`. PRESUMED: the spec gives none (R171), these are the 68HC11 family's; log 5. -/
def Launch.family : Launch where
  tcnt := 0x0000
  cmp := 0xFFFF
  mf := false
  pin := false
  ie := false
  srcEn := false
  toggleEn := false

/-- The machine right after reset: this hardware's configuration (R9), the block's reset values (R35), the platform's
presumed ones (log 5). -/
def State.reset : State := State.launch Config.hardware Launch.family

end Sys2Proof.Machine
end

