-- ==== Sys2Proof/Machine/Operands.lean ====
section
/-! DEFINITION. The Interval Table and its indexer (spec/40_interval_table.md), the re-arm adder
(spec/41_scheduler.md R92), and the ports a command reads or drives (spec/10_state.md R32). -/

namespace Sys2Proof.Machine

/-- `value_at(c) = TableRead(c) = T[c]` for `0 ≤ c < N`, no value elsewhere (R40, R80). An entry of a well-formed
table fits the word (R10). -/
def valueAt (cfg : Config) (c : Nat) : Option Nat :=
  if c < cfg.tableLen then cfg.table[c]? else none

/-- `next_cursor(c) = (c + 1) mod N`, computed as an integer, never modulo `2^CW` (R81). -/
def nextCursor (cfg : Config) (c : Nat) : Nat := (c + 1) % cfg.tableLen

/-- The least `k` with `n ≤ 2^k`. -/
def ceilLog2 (n : Nat) : Nat := ((List.range (n + 1)).find? fun k => decide (n ≤ 2 ^ k)).getD n

/-- `CW = max(1, ceil(log2 N))`, the width of `CURSOR` (R9). -/
def cursorWidth (cfg : Config) : Nat := max 1 (ceilLog2 cfg.tableLen)

/-- `add(a, v) = (a + v) mod 2^W`, the carry discarded (R92). -/
def reArmAdd (cfg : Config) (a v : Nat) : Nat := (a + v) % cfg.period

/-- `FSM` as `fsm_o` shows it (R24, R32). -/
def Fsm.bits : Fsm → BitVec 2
  | .unarmed => 0b00
  | .armed => 0b01
  | .triggering => 0b10
  | .faulted => 0b11

/-- The fault codes (R131). -/
def FaultCode.bits : FaultCode → BitVec 3
  | .noFault => 0
  | .reservedCmd => 1
  | .context => 2
  | .armTwice => 3
  | .armIrqEnabled => 4
  | .edgeUnarmed => 5

/-- The port `fsm_o` (R32). -/
def State.fsmPort (s : State) : BitVec 2 := s.fsm.bits

/-- The port `fault_o` (R32). -/
def State.faultPort (s : State) : BitVec 3 := s.fault.bits

/-- The port `ie_i`: the platform's `IE` (R32, R33). -/
def State.iePort (s : State) : Bool := s.ie

/-- `rdata_o` as a host `n` bits wide sees it, zero-extended (R64). -/
def State.rdataHost (s : State) (n : Nat) : Option (BitVec n) := s.out.rdata.map fun b => (BitVec.ofBool b).setWidth n

/-- A tick count as microseconds (R156); no rule of the block uses it. -/
def microseconds (cfg : Config) (ticks : Nat) : Rat := (ticks : Rat) / (cfg.tickRate : Rat)

end Sys2Proof.Machine
end

