-- ==== Sys2Proof/Machine/Flags.lean ====
section
/-! DEFINITION. The block's only flag, `PEND` (spec/10_state.md R23, R29), and the event history (R36). There are no
condition codes: the adder's carry is recorded nowhere (R29). -/

namespace Sys2Proof.Machine

/-- `emit E` (spec/00_scope.md R12): append to the history, never rewrite it (R36). -/
def emit (e : Event) (s : State) : State := { s with hist := s.hist ++ [e] }

/-- EDGE's step 7 (R93, R95): `PEND <- 1`, whatever it held. -/
def signal (s : State) : State := emit .signalled { s with pend := true }

/-- A foreground clear (R110, R114): `PEND <- 0`. -/
def clearSignal (s : State) : State := emit .cleared { s with pend := false }

/-- `rdata <- b`, the value a read command returns (R12, R64). -/
def returnBit (b : Bool) (s : State) : State := emit (.read b) { s with out := { s.out with rdata := some b } }

end Sys2Proof.Machine
end

