-- ==== Sys2Proof/Machine/Ops.lean ====
section
/-! DEFINITION. The shared operations: taking a fault (spec/60_exceptions.md R130), when a command has a step, the
compare match and the compare write (R150, R151, R153; spec/20_memory.md R42), the acknowledge (R43), the reset
transaction (spec/70_reset_and_hazards.md R170), the timer tick and the dispatch condition (R140, R150). -/

namespace Sys2Proof.Machine

/-- `fsm <- S` (spec/00_scope.md R12). -/
def toFsm (f : Fsm) (s : State) : State := { s with fsm := f }

/-- `LAST <- t`. -/
def setLast (t : Nat) (s : State) : State := { s with last := some t }

/-- `CURSOR <- c`. -/
def setCursor (c : Nat) (s : State) : State := { s with cursor := some c }

/-- TAKING A FAULT, `raise Fault(code)` by the command word `w` (R130): `FAULT <- code`, `FSM <- FAULTED`, the event,
and nothing else. -/
def raiseFault (code : FaultCode) (w : BitVec 8) (s : State) : State :=
  emit (.faulted code w) { s with fault := code, fsm := .faulted }

/-- The fault a rejected word raises (R66, R131). -/
def rejectCode : Reject → FaultCode
  | .reservedCmd => .reservedCmd
  | .context => .context

/-- Why a command has no step in this state, if it has none (R25, R130). -/
def stuck? (s : State) : Option Fault :=
  match s.fsm with
  | .unarmed => none
  | .armed => none
  | .triggering => some .noStepWhileTriggering
  | .faulted => some .stuckInFaulted

/-- A command that needs no check of its own: it has its effect wherever a command has a step. -/
def whenLive (s : State) (effect : State → State) : Host.Outcome State Fault Refusal :=
  match stuck? s with
  | some f => .fault f
  | none => .next (effect s)

/-- The platform inverts the pin if `TOGGLE_EN` is set and records the new level (R151). -/
def togglePin (s : State) : State :=
  if s.toggleEn then emit (.toggled (!s.pin)) { s with pin := !s.pin } else s

/-- A compare match (R150, R151): `MF <- 1`, merging into an `MF` already set, and the pin. DESIGN CHOICE: the spec
does not order the two events of one match in `H`; here `Match` stands before `Toggle` (log 20). -/
def compareMatch (s : State) : State := togglePin (emit .matched { s with mf := true })

/-- Whether writing `v` to `CMP` now matches at once (R153). -/
def matchesOnWrite (v : Nat) (s : State) : Bool := s.cfg.matchOnWrite && s.tcnt == v

/-- `CmpWrite(v)` (R42): one whole-word write, driven on `cmp_wr_o` and `cmp_data_o`; the platform's answer on the
same tick is the open parameter's (R153). -/
def cmpWrite (v : Nat) (s : State) : State :=
  let w := emit (.cmpWritten v) { s with cmp := v, out := { s.out with cmpWr := some v } }
  if matchesOnWrite v w then compareMatch w else w

/-- `Ack()` (R43): clear `MF`. -/
def acknowledge (s : State) : State :=
  emit .acked { s with mf := false, out := { s.out with ack := true } }

/-- THE RESET TRANSACTION (R170): the block's reset values (R35), no platform state changed and no output driven. It
is also the only return from `FAULTED` (R24). -/
def resetBlock (s : State) : State :=
  { s with fsm := .unarmed, fault := .noFault, pend := false, cursor := none, last := none, hist := [] }

/-- The counter's next value: it wraps from `2^W − 1` to 0 (R150). -/
def nextCount (cfg : Config) (t : Nat) : Nat := (t + 1) % cfg.period

/-- One tick of the timer (R150): the counter advances modulo `2^W`, and a match happens when it takes the value
`CMP`. -/
def timerTick (s : State) : State :=
  let w := { s with tcnt := nextCount s.cfg s.tcnt }
  if w.tcnt = w.cmp then compareMatch w else w

/-- `n` ticks of the timer. -/
def runTicks : Nat → State → State
  | 0, s => s
  | n + 1, s => runTicks n (timerTick s)

/-- The platform dispatches exactly when `IE = 1`, `SRC_EN = 1`, `MF = 1`, no EDGE is in progress and `FSM ≠ FAULTED`
(R140). -/
def dispatchEnabled (s : State) : Bool :=
  s.ie && s.srcEn && s.mf && decide (s.fsm ≠ .triggering) && decide (s.fsm ≠ .faulted)

/-- The start of a step: the world's next act is taken off the schedule, and the output ports of the transaction
before it hold no value any more (R64). -/
def beginCycle (rest : List Input) (s : State) : State := { s with inputs := rest, out := Outputs.idle }

end Sys2Proof.Machine
end

