-- ==== Sys2Proof/Machine/Scheduler.lean ====
section
/-! DEFINITION. The Pulse Scheduler commands ARM and EDGE (spec/41_scheduler.md). -/

namespace Sys2Proof.Machine

/-- ARM once its checks have passed (R90): the four writes, in order. -/
def armSteps (t : Nat) (s : State) : State :=
  toFsm .armed (setCursor 0 (setLast t (cmpWrite t s)))

/-- ARM, `arm_first(now, lead)` (R90). `ARM_TWICE` is checked before `ARM_IRQ_ENABLED` (R138). -/
def execArm (now lead : Nat) (s : State) : Host.Outcome State Fault Refusal :=
  match stuck? s with
  | some f => .fault f
  | none =>
    if s.fsm ≠ .unarmed then .next (raiseFault .armTwice (Instr.word (.arm now lead)) s)
    else if s.iePort then .next (raiseFault .armIrqEnabled (Instr.word (.arm now lead)) s)
    else .next (armSteps (reArmAdd s.cfg now lead) s)

/-- EDGE's seven steps in the normative order (R93, R94), for the cursor `c`, the time `l` and the table value `v` it
read. The platform's timer runs on meanwhile: a match after the acknowledge sets `MF` again (R94 (a), R143). How many
ticks pass, at the two places that can show, is open: DESIGN CHOICE, log 21. -/
def edgeSteps (c : Nat) (l v : Nat) (s : State) : State :=
  let s0 := toFsm .triggering s
  let s1 := acknowledge s0
  let t := reArmAdd s.cfg l v
  let s4 := cmpWrite t (runTicks s.handler.toWrite s1)
  let s5 := setLast t (runTicks s.handler.toSignal s4)
  let s6 := setCursor (nextCursor s.cfg c) s5
  let s7 := signal s6
  toFsm .armed s7

/-- EDGE, `on_edge_triggered()` (R93). It tests neither `MF` nor the counter (R96, R98). A read of `CURSOR` or `LAST`
while they hold no value is exactly the fault `EDGE_UNARMED` (R135); an index the table does not have is refused
(R40). -/
def execEdge (s : State) : Host.Outcome State Fault Refusal :=
  match stuck? s with
  | some f => .fault f
  | none =>
    if s.fsm = .unarmed then .next (raiseFault .edgeUnarmed (Instr.word .edge) s)
    else
      match s.cursor, s.last with
      | some c, some l =>
        match valueAt s.cfg c with
        | some v => .next (edgeSteps c l v s)
        | none => .refused .tableIndexOutOfRange
      | none, _ => .next (raiseFault .edgeUnarmed (Instr.word .edge) s)
      | some _, none => .next (raiseFault .edgeUnarmed (Instr.word .edge) s)

end Sys2Proof.Machine
end

