-- ==== Sys2Proof/Machine/Signal.lean ====
section
/-! DEFINITION. The cross-context signal commands SIGCLR, SIGRD, SIGRC, and NOP (spec/42_consumer_signal.md). None of
them checks `FSM`: each runs in `UNARMED` and in `ARMED`, and none has a step in `FAULTED`. -/

namespace Sys2Proof.Machine

/-- NOP (R116): no register written, no event. -/
def execNop (s : State) : Host.Outcome State Fault Refusal := whenLive s fun s => s

/-- SIGCLR (R110): `PEND <- 0`. -/
def execSigclr (s : State) : Host.Outcome State Fault Refusal := whenLive s clearSignal

/-- SIGRD (R112): `rdata <- PEND`, read from the register itself (R53). -/
def execSigrd (s : State) : Host.Outcome State Fault Refusal := whenLive s fun s => returnBit s.pend s

/-- SIGRC (R114): read, then clear, in one command. -/
def execSigrc (s : State) : Host.Outcome State Fault Refusal := whenLive s fun s => clearSignal (returnBit s.pend s)

end Sys2Proof.Machine
end

