-- ==== Sys2Proof/Machine/Dispatch.lean ====
section
/-! DEFINITION. One arm per command. -/

namespace Sys2Proof.Machine

def exec (i : Instr) (s : State) : Host.Outcome State Fault Refusal :=
  match i with
  | .nop => Sys2Proof.Machine.execNop s
  | .arm now lead => Sys2Proof.Machine.execArm now lead s
  | .edge => Sys2Proof.Machine.execEdge s
  | .sigclr => Sys2Proof.Machine.execSigclr s
  | .sigrd => Sys2Proof.Machine.execSigrd s
  | .sigrc => Sys2Proof.Machine.execSigrc s

end Sys2Proof.Machine
end

