-- ==== Sys2Proof/Machine/Transaction.lean ====
section
/-! DEFINITION. One transaction of the total order of spec/20_memory.md R44: a presented command, a port cycle, a tick,
a dispatch or a platform call. -/

namespace Sys2Proof.Machine

/-- A presented command word (spec/30_encoding.md R66, R68): the command it is, or the fault it raises before any
effect. In a state where no command has a step a rejected word has none either (R25, R130). -/
def runCommand (c : Command) (s : State) : Host.Outcome State Fault Refusal :=
  match decode s.cfg.regWidth c with
  | .command i => exec i s
  | .reject r => whenLive s (raiseFault (rejectCode r) c.cmd)

/-- One port cycle: reset takes precedence over a command presented with it (R170), and without `cmd_valid_i` there is
no transaction (R61). DESIGN CHOICE: the command presented with a reset is lost; the spec does not say whether it is
lost or taken after the reset (log 23). -/
def runCycle (p : PortCycle) (s : State) : Host.Outcome State Fault Refusal :=
  if p.rst then .next (resetBlock s)
  else if p.cmdValid then runCommand p.command s
  else .next s

/-- The platform's dispatch (R140): it issues EDGE (`0x82`) when it is enabled and issues nothing otherwise. -/
def runDispatch (s : State) : Host.Outcome State Fault Refusal :=
  if dispatchEnabled s then runCommand (encode .edge) s else .next s

/-- What one act of the outside world does (R33, R140, R150, R152, R170, R175). The platform's own acknowledge at boot
is no act of the block and appends no event (R175 step 2). -/
def runInput (x : Input) (s : State) : Host.Outcome State Fault Refusal :=
  match x with
  | .cycle p => runCycle p s
  | .tick => .next (timerTick s)
  | .dispatch => runDispatch s
  | .setIe on => .next { s with ie := on }
  | .enableToggle => .next { s with toggleEn := true }
  | .installHandler => .next { s with srcEn := true }
  | .ackMatchFlag => .next { s with mf := false }
  | .readCounter => .next { s with counterRead := some s.tcnt }
  | .handler h => .next { s with handler := h }

/-- The next transaction of the schedule; with nothing scheduled nothing is presented (R61). -/
def runNext (s : State) : Host.Outcome State Fault Refusal :=
  match s.inputs with
  | [] => .next (beginCycle [] s)
  | x :: rest => runInput x (beginCycle rest s)

/-- A command presented on the block's ports. -/
def present (c : Command) : Input := .cycle ⟨false, true, c⟩

/-- The boot sequence of R175, for the counter value `now` its third step returns; the lead is the host's choice. DESIGN
CHOICE: no tick passes between its steps, so `L_0` is 0; the spec leaves open how many do (log 24). DESIGN CHOICE: the
three platform calls of step 2 come in the order R175 lists them; the spec leaves their order open (log 25). -/
def bootSequence (now lead : Nat) : List Input :=
  [.setIe false, .enableToggle, .installHandler, .ackMatchFlag, .readCounter, present (encode (.arm now lead)),
    .setIe true]

end Sys2Proof.Machine
end

