-- ==== Sys2Proof/Machine/Step.lean ====
section
/-! DEFINITION. One step of the machine: the next transaction of the schedule (spec/20_memory.md R44), for a
well-formed configuration (spec/00_scope.md R10). -/

namespace Sys2Proof.Machine

/-- One transaction. An ill-formed configuration is refused: it has no run (R10, R134). -/
def step (s : State) : Host.Outcome State Fault Refusal :=
  if s.cfg.wf then runNext s else .refused .illFormedConfig

/-- The state in which the next step runs the command of a table row's word: the word is presented next. -/
def State.withFetchWord (s : State) (nbits w : Nat) : State :=
  { s with inputs := present (tableCommand nbits w) :: s.inputs }

end Sys2Proof.Machine
end

