-- ==== Sys2Proof/Machine/Assembler.lean ====
section
/-! DEFINITION. The assembler's notation and its pseudo-instructions (spec/30_encoding.md R70, R71). They are the
host's: the block sees only the commands and platform calls they expand to. -/

namespace Sys2Proof.Machine

/-- A line of a listing, its operands as written (R70, R71). -/
inductive Asm where
  | nop
  | arm (now lead : Nat)
  | edge
  | sigclr
  | sigrd
  | sigrc
  | waitsig
  | consume
  | takesig
  | irqoff
  | irqon
deriving DecidableEq, Repr

/-- What the host does for a line: one act, or an act repeated until its read returns 1
(`L: x ; if rdata = 0 then goto L`, R71). -/
inductive HostStep where
  | once (x : Input)
  | untilOne (x : Input)
deriving DecidableEq, Repr

/-- An operand is in `0 .. 2^W − 1`, `w` being `W`; one outside is refused, not reduced (R70). -/
def operandOk (w n : Nat) : Bool := decide (n < 2 ^ w)

/-- The acts a line stands for, or nothing where the assembler refuses it (R70, R71). The line EDGE marks where the
dispatch issued `0x82`. -/
def Asm.expand (w : Nat) : Asm → Option (List HostStep)
  | .nop => some [.once (present (encode .nop))]
  | .arm now lead =>
    if operandOk w now && operandOk w lead then some [.once (present (encode (.arm now lead)))] else none
  | .edge => some [.once (present (encode .edge))]
  | .sigclr => some [.once (present (encode .sigclr))]
  | .sigrd => some [.once (present (encode .sigrd))]
  | .sigrc => some [.once (present (encode .sigrc))]
  | .waitsig => some [.untilOne (present (encode .sigrd))]
  | .consume => some [.once (present (encode .sigclr)), .untilOne (present (encode .sigrd))]
  | .takesig => some [.untilOne (present (encode .sigrc))]
  | .irqoff => some [.once (.setIe false)]
  | .irqon => some [.once (.setIe true)]

/-- What the host goes on with after a step `h` whose act left the state `s`: the same step again while its read
returned 0 (R71), else the steps after it. -/
def hostNext (h : HostStep) (more : List HostStep) (s : State) : List HostStep :=
  match h with
  | .once _ => more
  | .untilOne _ => if s.out.rdata = some false then h :: more else more

/-- A line of text read by the assembler (R70). -/
inductive LineResult where
  | empty
  | line (a : Asm)
  | refused
deriving DecidableEq, Repr

/-- A decimal digit's value. -/
def decDigit (c : Char) : Option Nat := if 48 ≤ c.toNat ∧ c.toNat ≤ 57 then some (c.toNat - 48) else none

/-- A hexadecimal digit's value, in either case. -/
def hexDigit (c : Char) : Option Nat :=
  if 97 ≤ c.toNat ∧ c.toNat ≤ 102 then some (c.toNat - 87)
  else if 65 ≤ c.toNat ∧ c.toNat ≤ 70 then some (c.toNat - 55)
  else decDigit c

/-- The number that digits of a base spell, most significant first. -/
def readDigits (base : Nat) (digit : Char → Option Nat) : List Char → Nat → Option Nat
  | [], acc => some acc
  | c :: cs, acc =>
    match digit c with
    | some d => readDigits base digit cs (acc * base + d)
    | none => none

/-- An operand: decimal, or hexadecimal with prefix `0x` (R70). -/
def readOperand : List Char → Option Nat
  | '0' :: 'x' :: c :: cs => readDigits 16 hexDigit (c :: cs) 0
  | c :: cs => readDigits 10 decDigit (c :: cs) 0
  | [] => none

/-- Text without the spaces around it. -/
def trimSpaces (cs : List Char) : List Char :=
  ((cs.dropWhile (· == ' ')).reverse.dropWhile (· == ' ')).reverse

/-- The lines without operands, by their names (R70, R71). -/
def plainLine (name : List Char) : LineResult :=
  if name = ['N', 'O', 'P'] then .line .nop
  else if name = ['E', 'D', 'G', 'E'] then .line .edge
  else if name = ['S', 'I', 'G', 'C', 'L', 'R'] then .line .sigclr
  else if name = ['S', 'I', 'G', 'R', 'D'] then .line .sigrd
  else if name = ['S', 'I', 'G', 'R', 'C'] then .line .sigrc
  else if name = ['W', 'A', 'I', 'T', 'S', 'I', 'G'] then .line .waitsig
  else if name = ['C', 'O', 'N', 'S', 'U', 'M', 'E'] then .line .consume
  else if name = ['T', 'A', 'K', 'E', 'S', 'I', 'G'] then .line .takesig
  else if name = ['I', 'R', 'Q', 'O', 'F', 'F'] then .line .irqoff
  else if name = ['I', 'R', 'Q', 'O', 'N'] then .line .irqon
  else .refused

/-- ARM's two operands, separated by a comma, each in range (R70). -/
def armLine (w : Nat) (operands : List Char) : LineResult :=
  match readOperand (trimSpaces (operands.takeWhile (· != ','))),
      readOperand (trimSpaces ((operands.dropWhile (· != ',')).drop 1)) with
  | some now, some lead => if operandOk w now && operandOk w lead then .line (.arm now lead) else .refused
  | none, _ => .refused
  | some _, none => .refused

/-- One line of a listing: a comment starts with `;` and runs to the end of the line (R70). -/
def readLine (w : Nat) (cs : List Char) : LineResult :=
  let body := trimSpaces (cs.takeWhile (· != ';'))
  let name := body.takeWhile (· != ' ')
  let rest := trimSpaces (body.dropWhile (· != ' '))
  if body = [] then .empty
  else if name = ['A', 'R', 'M'] then armLine w rest
  else if rest = [] then plainLine name
  else .refused

end Sys2Proof.Machine
end

