-- ==== Sys2Proof/Safety.lean ====
section
/-! DEFINITION. What a safe run is, in the terms the claims use: the compare writes and faults of a history, the
programmed schedule, and the invariants of spec/10_state.md R26, R27 and spec/20_memory.md R58. -/

namespace Sys2Proof.Machine

/-- A command has a step in the state: it is neither `FAULTED` (R130) nor inside an EDGE (R25). -/
abbrev Live (s : State) : Prop := s.fsm = .unarmed ∨ s.fsm = .armed

/-- No act of the schedule is a reset. -/
def NoReset (xs : List Input) : Prop := ∀ p, Input.cycle p ∈ xs → p.rst = false

/-- The values of the compare writes in a history, oldest first. -/
def cmpWrites (h : List Event) : List Nat :=
  h.filterMap fun e => match e with
    | .cmpWritten v => some v
    | .acked => none
    | .signalled => none
    | .cleared => none
    | .read _ => none
    | .faulted _ _ => none
    | .matched => none
    | .toggled _ => none

/-- The codes of the faults in a history, oldest first. -/
def faultCodes (h : List Event) : List FaultCode :=
  h.filterMap fun e => match e with
    | .faulted code _ => some code
    | .cmpWritten _ => none
    | .acked => none
    | .signalled => none
    | .cleared => none
    | .read _ => none
    | .matched => none
    | .toggled _ => none

/-- How many compare matches a history shows. -/
def matchCount (h : List Event) : Nat := h.count .matched

/-- How many EDGEs a history shows: each appends one `Signalled` (R93). -/
def edgeCount (h : List Event) : Nat := h.count .signalled

/-- Ticks from a counter value to the next match with a fixed compare value: 1 .. `2^W` (R150). -/
def ticksToMatch (cfg : Config) (tcnt cmp : Nat) : Nat :=
  if tcnt < cmp then cmp - tcnt else cmp + cfg.period - tcnt

/-- The counter after `n` ticks (R150). -/
def countAfter (cfg : Config) : Nat → Nat → Nat
  | 0, t => t
  | n + 1, t => countAfter cfg n (nextCount cfg t)

/-- How many of `n` ticks match: those on which the counter takes the value `cmp` (R150). -/
def matchesIn (cfg : Config) (cmp : Nat) : Nat → Nat → Nat
  | 0, _ => 0
  | n + 1, t => (decide (nextCount cfg t = cmp)).toNat + matchesIn cfg cmp n (nextCount cfg t)

/-- How many matches fall inside an EDGE that starts at the counter value `tcnt`, replaces the compare value `old` by
`new` and takes `h`: on the old value after the acknowledge, at the write itself where `MATCH_ON_WRITE` says so, and
on the new value before EDGE ends (R94, R143, R153). -/
def matchesDuringEdge (cfg : Config) (h : HandlerTicks) (tcnt old new : Nat) : Nat :=
  matchesIn cfg old h.toWrite tcnt
    + ((cfg.matchOnWrite && countAfter cfg h.toWrite tcnt == new).toNat
      + matchesIn cfg new h.toSignal (countAfter cfg h.toWrite tcnt))

/-- Ticks from a compare write to the match it leads to, for an interval and the ticks already gone by at the write
(R153, R154). -/
def writeToMatch (cfg : Config) (interval gone : Nat) : Nat :=
  if interval = gone then (if cfg.matchOnWrite then 0 else cfg.period)
  else if gone < interval then interval - gone else interval + cfg.period - gone

/-- A run without a fault: "no `Faulted` event in `H`" (R130). -/
def NoFaulted (s : State) : Prop := faultCodes s.hist = []

/-- At least one `Signalled` stands in the history after the last `Cleared` (R58). -/
def SignalledSinceClear (h : List Event) : Prop :=
  ∃ before after, h = before ++ Event.signalled :: after ∧ Event.cleared ∉ after

/-- `Σ_{j < k} T[j mod N]`, in ticks (R99). -/
def intervalSum (cfg : Config) (k : Nat) : Nat :=
  ((List.range k).map fun j => cfg.table.getD (j % cfg.tableLen) 0).sum

/-- The `k`-th programmed time from the first one `p` (R99): `P_k = (P_0 + Σ_{j < k} T[j mod N]) mod 2^W`. -/
def programmedTime (cfg : Config) (p : Nat) (k : Nat) : Nat :=
  (p + intervalSum cfg k) % cfg.period

/-- The compare writes so far are the programmed schedule from `p`, `LAST` is the last of them, and the cursor stands
at its index modulo `N` (R99). -/
def ScheduleFrom (p : Nat) (s : State) : Prop :=
  ∃ k, cmpWrites s.hist = (List.range (k + 1)).map (programmedTime s.cfg p)
    ∧ s.last = some (programmedTime s.cfg p k) ∧ s.cursor = some (k % s.cfg.tableLen)

/-- The register invariants (R25, R27): (a), (b), (c) in `ARMED`, (d) in `UNARMED`, where there is also no compare
write yet; never `TRIGGERING` between steps. -/
def RegisterInv (s : State) : Prop :=
  s.fsm ≠ .triggering
  ∧ (s.fsm = .armed → ∃ c l, s.cursor = some c ∧ c < s.cfg.tableLen ∧ s.last = some l
      ∧ (cmpWrites s.hist).getLast? = some l ∧ s.cmp = l)
  ∧ (s.fsm = .unarmed → s.cursor = none ∧ s.last = none ∧ cmpWrites s.hist = [])

/-- The word invariant: every register of `W` bits holds a value below `2^W` (R9, R20, R33). -/
def WordInv (s : State) : Prop :=
  s.tcnt < s.cfg.period ∧ s.cmp < s.cfg.period ∧ (∀ l, s.last = some l → l < s.cfg.period)
    ∧ (∀ v, s.out.cmpWr = some v → v < s.cfg.period) ∧ (∀ t, s.counterRead = some t → t < s.cfg.period)
    ∧ ∀ v ∈ cmpWrites s.hist, v < s.cfg.period

/-- The fault invariants (R26, R130): `FAULT` holds a code exactly in `FAULTED`, the code of the one fault taken. -/
def FaultInv (s : State) : Prop :=
  (s.fsm = .faulted ↔ s.fault ≠ .noFault)
  ∧ faultCodes s.hist = if s.fault = .noFault then [] else [s.fault]

/-- The signal invariant: `PEND = 1` exactly when a `Signalled` stands after the last `Cleared` (R58), and no signal
stands before ARM (R173). -/
def SignalInv (s : State) : Prop :=
  s.fsm ≠ .triggering
  ∧ (s.pend = true ↔ SignalledSinceClear s.hist)
  ∧ (s.fsm = .unarmed → s.pend = false)

/-- Every `Cleared` of a history directly follows the `Read` of the same SIGRC, which returned 1 if a `Signalled`
stood since the clear before it (R114): true while the consumer clears with SIGRC only. -/
def ReadBeforeClear (h : List Event) : Prop :=
  ∀ before after, h = before ++ Event.cleared :: after →
    ∃ earlier b, before = earlier ++ [Event.read b] ∧ (SignalledSinceClear earlier → b = true)

/-- The schedule invariant (R99): in `ARMED` the compare writes are a programmed schedule; in `UNARMED` there are
none. -/
def ScheduleInv (s : State) : Prop :=
  s.fsm ≠ .triggering
  ∧ (s.fsm = .armed → ∃ p, ScheduleFrom p s)
  ∧ (s.fsm = .unarmed → cmpWrites s.hist = [])

end Sys2Proof.Machine
end

