-- ==== Sys2Proof/Certificates/Slice0/Obligations.lean ====
section
/-! DEFINITION. The statements for the provers, from the numbered rules of spec/. -/

open Sys2Proof Sys2Proof.Machine

/-! Reset and the launch -/

/-- R35: the reset values, in every launch and by the reset transaction; the table and the platform are untouched. -/
def Obligations.ResetValues : Prop :=
  (∀ (cfg : Config) (l : Launch),
    (State.launch cfg l).fsm = .unarmed ∧ (State.launch cfg l).fault = .noFault ∧ (State.launch cfg l).pend = false
      ∧ (State.launch cfg l).cursor = none ∧ (State.launch cfg l).last = none ∧ (State.launch cfg l).hist = []
      ∧ (State.launch cfg l).fsmPort = 0b00 ∧ (State.launch cfg l).faultPort = 0
      ∧ (State.launch cfg l).cfg = cfg ∧ (State.launch cfg l).tcnt = l.tcnt ∧ (State.launch cfg l).cmp = l.cmp
      ∧ (State.launch cfg l).mf = l.mf ∧ (State.launch cfg l).pin = l.pin ∧ (State.launch cfg l).ie = l.ie
      ∧ (State.launch cfg l).srcEn = l.srcEn ∧ (State.launch cfg l).toggleEn = l.toggleEn)
  ∧ ∀ s : State, resetBlock s =
      { s with fsm := .unarmed, fault := .noFault, pend := false, cursor := none, last := none, hist := [] }

/-- A port cycle with `rst_i` (R170) resets the block from any state, whatever command is presented with it, drives no
output and changes no platform state. That the command is lost (log 23), that the schedule moves on and that the
outputs of the transaction before it go (logs 6 and 8) are the model's choices. -/
def Obligations.ResetTransaction : Prop :=
  ∀ (s : State) (p : PortCycle) (rest : List Input),
    s.cfg.wf = true → s.inputs = .cycle p :: rest → p.rst = true →
    step s = .next
      { s with
        fsm := .unarmed, fault := .noFault, pend := false, cursor := none, last := none, hist := []
        out := ⟨none, none, false⟩, inputs := rest }

/-- The invariants hold in every launch, this hardware's `State.reset` among them; the word invariant in every launch
whose counter and compare value fit the width (R171). That those of `State.reset` do is the model's: its counter and
compare value are presumed (log 5), and so is its width 16 (log 1). -/
def Obligations.LaunchMeetsInvariants : Prop :=
  (∀ (cfg : Config) (l : Launch),
    RegisterInv (State.launch cfg l) ∧ FaultInv (State.launch cfg l) ∧ SignalInv (State.launch cfg l)
      ∧ ScheduleInv (State.launch cfg l) ∧ (l.wf cfg = true → WordInv (State.launch cfg l)))
  ∧ RegisterInv State.reset ∧ FaultInv State.reset ∧ SignalInv State.reset ∧ ScheduleInv State.reset
  ∧ WordInv State.reset

/-- What a well-formed configuration is (R10), and that an ill-formed one has no run (R134). That the refusal comes at
the step is the model's choice (log 12). -/
def Obligations.IllFormedConfigurationHasNoRun : Prop :=
  (∀ cfg : Config, cfg.wf = true ↔
    1 ≤ cfg.regWidth ∧ 1 ≤ cfg.tableLen ∧ cfg.table.length = cfg.tableLen
      ∧ ∀ e ∈ cfg.table, 1 ≤ e ∧ e ≤ 2 ^ cfg.regWidth - 1)
  ∧ ∀ s : State, s.cfg.wf = false → step s = .refused .illFormedConfig

/-- The table of this hardware (R84), its length, its intervals in microseconds, its sum; and that its configuration
is well formed (R10), at the width 16 that is presumed (R9, log 1). -/
def Obligations.HardwareTable : Prop :=
  Config.hardware.table = [1000, 1000, 1000, 2000, 2000, 10000, 200, 1000, 10000, 2000, 200, 200]
  ∧ Config.hardware.tableLen = 12 ∧ Config.hardware.wf = true
  ∧ Config.hardware.table.map (microseconds Config.hardware)
      = [500, 500, 500, 1000, 1000, 5000, 100, 500, 5000, 1000, 100, 100]
  ∧ Config.hardware.table.sum = 30600 ∧ microseconds Config.hardware 30600 = 15300

/-- The cursor width (R9, D4): the smallest width, at least one bit, that holds `0 .. N − 1`; 4 for this hardware. -/
def Obligations.CursorWidthIsSmallest : Prop :=
  (∀ cfg : Config, 1 ≤ cfg.tableLen →
    1 ≤ cursorWidth cfg ∧ cfg.tableLen ≤ 2 ^ cursorWidth cfg
      ∧ ∀ k, 1 ≤ k → cfg.tableLen ≤ 2 ^ k → cursorWidth cfg ≤ k)
  ∧ cursorWidth Config.hardware = 4

/-! Decoding -/

/-- R66: the verdict on every word at every width `w`, by the arithmetic of its fields `CTX = word / 128`,
`RSV = word / 16 mod 8`, `OP = word mod 16`; a rejected word raises its fault, any other word runs its command. -/
def Obligations.DecodeVerdicts : Prop :=
  ∀ (w : Nat) (c : Command),
    (decode w c = .reject .reservedCmd ↔ c.cmd.toNat / 16 % 8 ≠ 0 ∨ 6 ≤ c.cmd.toNat % 16)
    ∧ (decode w c = .reject .context ↔
        (c.cmd.toNat / 16 % 8 = 0 ∧ c.cmd.toNat % 16 < 6)
        ∧ ((c.cmd.toNat % 16 = 2 ∧ c.cmd.toNat / 128 = 0) ∨ (c.cmd.toNat % 16 ≠ 2 ∧ c.cmd.toNat / 128 = 1)))
    ∧ (decode w c = .command .nop ↔ c.cmd.toNat = 0)
    ∧ (∀ now lead, decode w c = .command (.arm now lead) ↔
        c.cmd.toNat = 1 ∧ c.opa % 2 ^ w = now ∧ c.opb % 2 ^ w = lead)
    ∧ (decode w c = .command .edge ↔ c.cmd.toNat = 128 + 2)
    ∧ (decode w c = .command .sigclr ↔ c.cmd.toNat = 3)
    ∧ (decode w c = .command .sigrd ↔ c.cmd.toNat = 4)
    ∧ (decode w c = .command .sigrc ↔ c.cmd.toNat = 5)
    ∧ (∀ s : State, s.cfg.regWidth = w → Live s → decode w c = .reject .reservedCmd → runCommand c s = .next
        { s with fsm := .faulted, fault := .reservedCmd, hist := s.hist ++ [.faulted .reservedCmd c.cmd] })
    ∧ (∀ s : State, s.cfg.regWidth = w → Live s → decode w c = .reject .context → runCommand c s = .next
        { s with fsm := .faulted, fault := .context, hist := s.hist ++ [.faulted .context c.cmd] })
    ∧ ∀ (s : State) (i : Instr), s.cfg.regWidth = w → decode w c = .command i → runCommand c s = exec i s

/-- How many of the 256 words each verdict has, whatever the width and whatever stands on the operand ports (the spec
derives it: R67). -/
def Obligations.VerdictCounts : Prop :=
  ∀ width opa opb : Nat,
    (List.range 256).countP (fun w => decide (decode width ⟨BitVec.ofNat 8 w, opa, opb⟩ = .reject .reservedCmd)) = 244
    ∧ (List.range 256).countP (fun w => decide (decode width ⟨BitVec.ofNat 8 w, opa, opb⟩ = .reject .context)) = 6
    ∧ (List.range 256).filter (fun w => (decode width ⟨BitVec.ofNat 8 w, opa, opb⟩).instr?.isSome)
        = [0x00, 0x01, 0x03, 0x04, 0x05, 0x82]

/-- Decoding and encoding agree at every width: every well-formed command decodes from its encoding with all its
operands, and a transaction decodes to a command exactly when it presents that command's word and, for ARM, its
operands as the low `W` bits of the two ports (R62, R63). -/
def Obligations.DecodeEncodeAgree : Prop :=
  (∀ (w : Nat) (i : Instr), i.wf w = true → decode w (encode i) = .command i)
  ∧ ∀ (w : Nat) (c : Command) (i : Instr), decode w c = .command i ↔
      c.cmd = (encode i).cmd ∧ ∀ now lead, i = .arm now lead → c.opa % 2 ^ w = now ∧ c.opb % 2 ^ w = lead

/-- The six words of the table, written out from R62. -/
def Obligations.WordsOfTheTable : Prop :=
  decode 16 ⟨0b00000000, 7, 9⟩ = .command .nop
  ∧ decode 16 ⟨0b00000001, 7, 9⟩ = .command (.arm 7 9)
  ∧ decode 16 ⟨0b10000010, 7, 9⟩ = .command .edge
  ∧ decode 16 ⟨0b00000011, 7, 9⟩ = .command .sigclr
  ∧ decode 16 ⟨0b00000100, 7, 9⟩ = .command .sigrd
  ∧ decode 16 ⟨0b00000101, 7, 9⟩ = .command .sigrc

/-! The commands -/

/-- R116: NOP's word, that no other word is NOP, `0x80`, and that NOP changes nothing in any state with a step. -/
def Obligations.NopRule : Prop :=
  (∀ (w : Nat) (c : Command), decode w c = .command .nop ↔ c.cmd = 0x00)
  ∧ (∀ (w : Nat) (c : Command), c.cmd = 0x80 → decode w c = .reject .context)
  ∧ ∀ s : State, Live s → exec .nop s = .next s

/-- R90: ARM's word and operands, `0x81`, its effect, its two faults, and everything it leaves alone. `MatchOnWrite`
says what the platform adds where the compare write itself matches. -/
def Obligations.ArmRule : Prop :=
  (∀ (w : Nat) (c : Command), c.cmd = 0x01 → decode w c = .command (.arm (c.opa % 2 ^ w) (c.opb % 2 ^ w)))
  ∧ (∀ (w : Nat) (c : Command), c.cmd = 0x81 → decode w c = .reject .context)
  ∧ (∀ (s : State) (now lead t : Nat),
      s.fsm = .unarmed → s.ie = false → t = (now + lead) % 2 ^ s.cfg.regWidth →
      ∃ u, exec (.arm now lead) s = .next u
        ∧ u.fsm = .armed ∧ u.cursor = some 0 ∧ u.last = some t ∧ u.cmp = t ∧ u.out.cmpWr = some t
        ∧ cmpWrites u.hist = cmpWrites s.hist ++ [t] ∧ u.pend = s.pend ∧ u.fault = s.fault
        ∧ (s.cfg.matchOnWrite = false ∨ s.tcnt ≠ t →
            u = { s with
              fsm := .armed
              cursor := some 0
              last := some t
              cmp := t
              out := { s.out with cmpWr := some t }
              hist := s.hist ++ [.cmpWritten t] }))
  ∧ (∀ (s : State) (now lead : Nat), s.fsm = .armed →
      exec (.arm now lead) s = .next
        { s with fsm := .faulted, fault := .armTwice, hist := s.hist ++ [.faulted .armTwice 0x01] })
  ∧ ∀ (s : State) (now lead : Nat), s.fsm = .unarmed → s.ie = true →
      exec (.arm now lead) s = .next
        { s with fsm := .faulted, fault := .armIrqEnabled, hist := s.hist ++ [.faulted .armIrqEnabled 0x01] }

/-- EDGE (R93): its word, `0x02`, its effect with the events in the order of its steps, its fault before ARM, and
everything it leaves alone. That the ticks inside it are those of `handler` is the model's choice (log 21);
`MatchDuringEdge` says what the platform adds where a match falls inside. -/
def Obligations.EdgeRule : Prop :=
  (∀ (w : Nat) (c : Command), c.cmd = 0x82 → decode w c = .command .edge)
  ∧ (∀ (w : Nat) (c : Command), c.cmd = 0x02 → decode w c = .reject .context)
  ∧ (∀ (s : State) (c l t : Nat),
      s.cfg.wf = true → s.fsm = .armed → s.cursor = some c → c < s.cfg.tableLen → s.last = some l →
      t = (l + s.cfg.table.getD c 0) % 2 ^ s.cfg.regWidth →
      ∃ u, exec .edge s = .next u
        ∧ u.fsm = .armed ∧ u.cursor = some ((c + 1) % s.cfg.tableLen) ∧ u.last = some t ∧ u.cmp = t ∧ u.pend = true
        ∧ u.out.ack = true ∧ u.out.cmpWr = some t ∧ u.fault = s.fault
        ∧ u.tcnt = countAfter s.cfg (s.handler.toWrite + s.handler.toSignal) s.tcnt
        ∧ cmpWrites u.hist = cmpWrites s.hist ++ [t]
        ∧ (matchesDuringEdge s.cfg s.handler s.tcnt s.cmp t = 0 →
            u = { s with
              fsm := .armed
              cursor := some ((c + 1) % s.cfg.tableLen)
              last := some t
              tcnt := countAfter s.cfg (s.handler.toWrite + s.handler.toSignal) s.tcnt
              cmp := t
              pend := true
              out := { s.out with ack := true, cmpWr := some t }
              mf := false
              hist := s.hist ++ [.acked, .cmpWritten t, .signalled] }))
  ∧ ∀ s : State, s.fsm = .unarmed →
      exec .edge s = .next
        { s with fsm := .faulted, fault := .edgeUnarmed, hist := s.hist ++ [.faulted .edgeUnarmed 0x82] }

/-- Where a compare write sets `CMP` to the counter's own value and `MATCH_ON_WRITE` is true, the match is immediate
(R153): after ARM and after EDGE `MF` is 1 and the pin is toggled. That the events stand right after `CmpWritten`, so
inside EDGE's, and `Match` before `Toggle`, is the model's choice (logs 14 and 20), as is the EDGE without a tick
inside (log 21; `MatchDuringEdge` has the rest). -/
def Obligations.MatchOnWrite : Prop :=
  (∀ (s : State) (now lead : Nat),
    s.fsm = .unarmed → s.ie = false → s.cfg.matchOnWrite = true → s.tcnt = (now + lead) % s.cfg.period →
    exec (.arm now lead) s = .next
      { s with
        fsm := .armed
        cursor := some 0
        last := some s.tcnt
        cmp := s.tcnt
        out := { s.out with cmpWr := some s.tcnt }
        mf := true
        pin := s.pin ^^ s.toggleEn
        hist := s.hist ++ .cmpWritten s.tcnt :: .matched :: (if s.toggleEn then [.toggled (!s.pin)] else []) })
  ∧ ∀ (s : State) (c l v : Nat),
    s.fsm = .armed → s.cursor = some c → s.last = some l → valueAt s.cfg c = some v → s.handler = ⟨0, 0⟩ →
    s.cfg.matchOnWrite = true → s.tcnt = (l + v) % s.cfg.period →
    exec .edge s = .next
      { s with
        fsm := .armed
        cursor := some (nextCursor s.cfg c)
        last := some s.tcnt
        cmp := s.tcnt
        pend := true
        out := { s.out with ack := true, cmpWr := some s.tcnt }
        mf := true
        pin := s.pin ^^ s.toggleEn
        hist := s.hist ++ [.acked, .cmpWritten s.tcnt, .matched]
          ++ (if s.toggleEn then [.toggled (!s.pin)] else []) ++ [.signalled] }

/-- Matches inside an EDGE (R94 (a), R143): each sets `MF` again and toggles the pin; one falls there as soon as the
ticks after the acknowledge reach the old compare value or the ticks after the compare write reach the new one; and
the new EDGE it calls for is dispatched after this one. The model's choices: that the ticks inside an EDGE, any
number, pass at the two places of `handler` (log 21), and that an immediate match of the compare write counts inside
the EDGE and leaves `MF` 1 when it ends (log 14). -/
def Obligations.MatchDuringEdge : Prop :=
  ∀ (s : State) (c l v n : Nat),
    s.cfg.wf = true → WordInv s → s.fsm = .armed → s.cursor = some c → s.last = some l → valueAt s.cfg c = some v →
    n = matchesDuringEdge s.cfg s.handler s.tcnt s.cmp (reArmAdd s.cfg l v) →
    ∃ u, exec .edge s = .next u ∧ u.fsm = .armed ∧ u.last = some (reArmAdd s.cfg l v) ∧ u.cmp = reArmAdd s.cfg l v
      ∧ u.tcnt = (s.tcnt + s.handler.toWrite + s.handler.toSignal) % s.cfg.period
      ∧ u.mf = decide (0 < n) ∧ u.pin = (s.pin ^^ (s.toggleEn && decide (n % 2 = 1)))
      ∧ matchCount u.hist = matchCount s.hist + n ∧ edgeCount u.hist = edgeCount s.hist + 1
      ∧ (ticksToMatch s.cfg s.tcnt s.cmp ≤ s.handler.toWrite → 0 < n)
      ∧ (ticksToMatch s.cfg ((s.tcnt + s.handler.toWrite) % s.cfg.period) (reArmAdd s.cfg l v) ≤ s.handler.toSignal →
          0 < n)
      ∧ (s.cfg.matchOnWrite = true → (s.tcnt + s.handler.toWrite) % s.cfg.period = reArmAdd s.cfg l v → 0 < n)
      ∧ ∀ rest, 0 < n → s.ie = true → s.srcEn = true →
          ∃ t, step { u with inputs := .dispatch :: rest } = .next t ∧ t.fsm = .armed
            ∧ t.cursor = some (nextCursor s.cfg (nextCursor s.cfg c)) ∧ edgeCount t.hist = edgeCount s.hist + 2

/-- R110: SIGCLR's word, `0x83`, its effect and everything it leaves alone. -/
def Obligations.SigclrRule : Prop :=
  (∀ (w : Nat) (c : Command), c.cmd = 0x03 → decode w c = .command .sigclr)
  ∧ (∀ (w : Nat) (c : Command), c.cmd = 0x83 → decode w c = .reject .context)
  ∧ ∀ s : State, Live s → exec .sigclr s = .next { s with pend := false, hist := s.hist ++ [.cleared] }

/-- R112: SIGRD's word, `0x84`, its result and everything it leaves alone; before any EDGE it returns 0; repeated it
returns the same bit. -/
def Obligations.SigrdRule : Prop :=
  (∀ (w : Nat) (c : Command), c.cmd = 0x04 → decode w c = .command .sigrd)
  ∧ (∀ (w : Nat) (c : Command), c.cmd = 0x84 → decode w c = .reject .context)
  ∧ (∀ s : State, Live s → exec .sigrd s = .next
      { s with out := { s.out with rdata := some s.pend }, hist := s.hist ++ [.read s.pend] })
  ∧ (∀ s : State, SignalInv s → s.fsm = .unarmed → ∃ t, exec .sigrd s = .next t ∧ t.out.rdata = some false)
  ∧ ∀ s : State, Live s → ∃ t u, exec .sigrd s = .next t ∧ exec .sigrd t = .next u
      ∧ u.out.rdata = t.out.rdata ∧ u.pend = s.pend ∧ u.hist = s.hist ++ [.read s.pend, .read s.pend]

/-- SIGRC (R114): its word, `0x85`, its result and effect and everything it leaves alone; a second SIGRC returns 0. -/
def Obligations.SigrcRule : Prop :=
  (∀ (w : Nat) (c : Command), c.cmd = 0x05 → decode w c = .command .sigrc)
  ∧ (∀ (w : Nat) (c : Command), c.cmd = 0x85 → decode w c = .reject .context)
  ∧ (∀ s : State, Live s → exec .sigrc s = .next
      { s with
        pend := false, out := { s.out with rdata := some s.pend }
        hist := s.hist ++ [.read s.pend, .cleared] })
  ∧ ∀ s : State, Live s → ∃ t u, exec .sigrc s = .next t ∧ exec .sigrc t = .next u ∧ u.out.rdata = some false

/-- R92: the re-arm adder is addition modulo `2^W`, and EDGE and ARM use it. -/
def Obligations.AdderWraps : Prop :=
  (∀ (cfg : Config) (a v : Nat), reArmAdd cfg a v = (a + v) % 2 ^ cfg.regWidth)
  ∧ (∀ (s : State) (now lead : Nat), s.fsm = .unarmed → s.ie = false →
      ∃ t, exec (.arm now lead) s = .next t ∧ t.last = some (reArmAdd s.cfg now lead) ∧ t.fault = s.fault)
  ∧ ∀ (s : State) (c l v : Nat),
      s.fsm = .armed → s.cursor = some c → s.last = some l → valueAt s.cfg c = some v →
      ∃ t, exec .edge s = .next t ∧ t.last = some (reArmAdd s.cfg l v) ∧ t.fault = s.fault

/-- R138: the order of the checks, where two of them would fail. -/
def Obligations.CheckPriority : Prop :=
  (∀ (w : Nat) (c : Command), (c.cmd.toNat / 16 % 8 ≠ 0 ∨ 6 ≤ c.cmd.toNat % 16) → decode w c = .reject .reservedCmd)
  ∧ (∀ (w : Nat) (c : Command), c.cmd = 0x11 → decode w c = .reject .reservedCmd)
  ∧ (∀ (s : State) (c : Command), Live s → decode s.cfg.regWidth c = .reject .context →
      ∃ t, runCommand c s = .next t ∧ t.fault = .context ∧ t.cmp = s.cmp ∧ t.pend = s.pend)
  ∧ (∀ (s : State) (now lead : Nat), s.fsm = .armed → s.ie = true →
      ∃ t, exec (.arm now lead) s = .next t ∧ t.fault = .armTwice)
  ∧ ∀ s : State, s.fsm = .unarmed → ∃ t, exec .edge s = .next t ∧ t.fault = .edgeUnarmed

/-- What each command does in `UNARMED` (the spec derives it: R173). -/
def Obligations.UnarmedBehaviour : Prop :=
  ∀ s : State, SignalInv s → s.fsm = .unarmed →
    exec .nop s = .next s
    ∧ exec .sigclr s = .next { s with pend := false, hist := s.hist ++ [.cleared] }
    ∧ exec .sigrd s = .next { s with out := { s.out with rdata := some false }, hist := s.hist ++ [.read false] }
    ∧ exec .sigrc s = .next
        { s with pend := false, out := { s.out with rdata := some false }, hist := s.hist ++ [.read false, .cleared] }
    ∧ (∀ now lead, s.ie = false → ∃ t, exec (.arm now lead) s = .next t ∧ t.fsm = .armed)
    ∧ (∀ now lead, s.ie = true →
        ∃ t, exec (.arm now lead) s = .next t ∧ t.fsm = .faulted ∧ t.fault = .armIrqEnabled)
    ∧ ∃ t, exec .edge s = .next t ∧ t.fsm = .faulted ∧ t.fault = .edgeUnarmed

/-- Two EDGEs in immediate succession advance exactly twice (the spec derives it: R97). -/
def Obligations.DoubleFire : Prop :=
  ∀ (s : State) (c l v w : Nat),
    s.cfg.wf = true → s.fsm = .armed → s.cursor = some c → s.last = some l →
    valueAt s.cfg c = some v → valueAt s.cfg (nextCursor s.cfg c) = some w →
    ∃ t u, exec .edge s = .next t ∧ exec .edge t = .next u
      ∧ u.cursor = some (nextCursor s.cfg (nextCursor s.cfg c))
      ∧ u.last = some ((l + v + w) % s.cfg.period) ∧ u.cmp = (l + v + w) % s.cfg.period
      ∧ cmpWrites u.hist = cmpWrites s.hist ++ [(l + v) % s.cfg.period, (l + v + w) % s.cfg.period]

/-- Every command completes in one step in every state that meets the register invariant and where a command has a
step (R57). -/
def Obligations.EveryCommandCompletes : Prop :=
  ∀ (s : State) (i : Instr), s.cfg.wf = true → RegisterInv s → Live s →
    ∃ t, exec i s = .next t ∧ (t.fsm = s.fsm ∨ t.fsm = .faulted ∨ (s.fsm = .unarmed ∧ ∃ now lead, i = .arm now lead))

/-- The frame of every command: no command writes the configuration, the enables, the foreground's reading, the
handler's ticks or the schedule, the counter moves only while EDGE takes ticks (log 21), and every other field changes
only by the commands the spec names for it (R47). That the parameters beside the table stay is the model's choice
(logs 2 and 3). -/
def Obligations.CommandFrame : Prop :=
  ∀ (s t : State) (i : Instr), exec i s = .next t →
    (t.cfg = s.cfg ∧ t.ie = s.ie ∧ t.srcEn = s.srcEn ∧ t.toggleEn = s.toggleEn
      ∧ t.counterRead = s.counterRead ∧ t.handler = s.handler ∧ t.inputs = s.inputs ∧ ∃ e, t.hist = s.hist ++ e)
    ∧ (t.cursor ≠ s.cursor ∨ t.last ≠ s.last ∨ t.cmp ≠ s.cmp ∨ t.out.cmpWr ≠ s.out.cmpWr →
        i = .edge ∨ ∃ now lead, i = .arm now lead)
    ∧ (t.pend ≠ s.pend → i = .edge ∨ i = .sigclr ∨ i = .sigrc)
    ∧ (t.out.rdata ≠ s.out.rdata → i = .sigrd ∨ i = .sigrc)
    ∧ (t.out.ack ≠ s.out.ack → i = .edge)
    ∧ (t.tcnt ≠ s.tcnt → i = .edge ∧ s.handler ≠ ⟨0, 0⟩)
    ∧ (t.mf ≠ s.mf → i = .edge ∨ (s.cfg.matchOnWrite = true ∧ ∃ now lead, i = .arm now lead))
    ∧ (t.pin ≠ s.pin → s.toggleEn = true
        ∧ (i = .edge ∨ (s.cfg.matchOnWrite = true ∧ ∃ now lead, i = .arm now lead)))
    ∧ (t.fault ≠ s.fault → t.fsm = .faulted ∧ (i = .edge ∨ ∃ now lead, i = .arm now lead))
    ∧ (t.fsm ≠ s.fsm → i = .edge ∨ ∃ now lead, i = .arm now lead)

/-- R117: NOP, SIGCLR, SIGRD and SIGRC neither write nor read `CURSOR`, `LAST`, `CMP` or `MF`: whatever these hold,
the command does the same and leaves them. -/
def Obligations.ForegroundCannotReachScheduler : Prop :=
  ∀ (s : State) (i : Instr), Live s → i ∈ [.nop, .sigclr, .sigrd, .sigrc] →
    ∃ t, exec i s = .next t ∧ t.cursor = s.cursor ∧ t.last = s.last ∧ t.cmp = s.cmp ∧ t.mf = s.mf
      ∧ ∀ (c : Option Nat) (l : Option Nat) (m : Nat) (f : Bool),
          exec i { s with cursor := c, last := l, cmp := m, mf := f }
            = .next { t with cursor := c, last := l, cmp := m, mf := f }

/-- EDGE reads neither the counter nor `MF` (R96, R98): the block's registers, its outputs and its compare writes come
out the same whatever those hold. -/
def Obligations.EdgeIgnoresCounterAndMatchFlag : Prop :=
  ∀ (s t : State) (x : Nat) (f : Bool), exec .edge s = .next t →
    ∃ u, exec .edge { s with tcnt := x, mf := f } = .next u
      ∧ u.fsm = t.fsm ∧ u.cursor = t.cursor ∧ u.last = t.last ∧ u.pend = t.pend ∧ u.fault = t.fault ∧ u.cmp = t.cmp
      ∧ u.out = t.out ∧ cmpWrites u.hist = cmpWrites t.hist

/-- In `ARMED` (the spec derives it: R100), NOP, SIGCLR, SIGRD and SIGRC leave `CURSOR`, `LAST` and `CMP`, ARM
faults, and a step that changes one of the three runs an EDGE (or is a reset, which is no command). -/
def Obligations.OnlyEdgeMovesTheSchedule : Prop :=
  (∀ (s : State) (i : Instr), s.fsm = .armed → i ∈ [.nop, .sigclr, .sigrd, .sigrc] →
    ∃ t, exec i s = .next t ∧ t.cursor = s.cursor ∧ t.last = s.last ∧ t.cmp = s.cmp)
  ∧ (∀ (s : State) (now lead : Nat), s.fsm = .armed →
      ∃ t, exec (.arm now lead) s = .next t ∧ t.fsm = .faulted ∧ t.fault = .armTwice
        ∧ t.cursor = s.cursor ∧ t.last = s.last ∧ t.cmp = s.cmp)
  ∧ ∀ s t : State, s.fsm = .armed → step s = .next t →
      t.cursor ≠ s.cursor ∨ t.last ≠ s.last ∨ t.cmp ≠ s.cmp →
      ∃ x rest, s.inputs = x :: rest
        ∧ (x = .dispatch ∨ ∃ p, x = .cycle p ∧ (p.rst = true ∨ (p.cmdValid = true ∧ p.command.cmd = 0x82)))

/-- Where a command stops (R25, R130): in `FAULTED` and in `TRIGGERING` no command has a step and the dispatch issues
none. That the machine then stops by name, the schedule and the cleared outputs are
the model's choice (logs 6, 8 and 9). -/
def Obligations.NoStepWhereStuck : Prop :=
  (∀ (s : State) (i : Instr), s.fsm = .faulted → exec i s = .fault .stuckInFaulted)
  ∧ (∀ (s : State) (i : Instr), s.fsm = .triggering → exec i s = .fault .noStepWhileTriggering)
  ∧ (∀ (s : State) (c : Command), s.fsm = .faulted → runCommand c s = .fault .stuckInFaulted)
  ∧ ∀ (s : State) (rest : List Input), s.cfg.wf = true → s.inputs = .dispatch :: rest →
      s.fsm = .faulted ∨ s.fsm = .triggering →
      step s = .next { s with inputs := rest, out := ⟨none, none, false⟩ }

/-- R80: `value_at` within the table is its entry, never 0; at an index the table does not have, EDGE is refused. -/
def Obligations.TableReads : Prop :=
  (∀ (cfg : Config) (c : Nat), cfg.wf = true → c < cfg.tableLen →
    valueAt cfg c = some (cfg.table.getD c 0) ∧ 1 ≤ cfg.table.getD c 0 ∧ cfg.table.getD c 0 ≤ 2 ^ cfg.regWidth - 1)
  ∧ (∀ (cfg : Config) (c : Nat), cfg.tableLen ≤ c → valueAt cfg c = none)
  ∧ ∀ (s : State) (c l : Nat), s.fsm = .armed → s.cursor = some c → s.last = some l → s.cfg.tableLen ≤ c →
      exec .edge s = .refused .tableIndexOutOfRange

/-- R81: the two forms of `next_cursor`, its range, its wrap to 0, and a table whose length is a power of two. -/
def Obligations.NextCursorForms : Prop :=
  ∀ (cfg : Config) (c : Nat), 1 ≤ cfg.tableLen → c < cfg.tableLen →
    nextCursor cfg c = (c + 1) % cfg.tableLen
    ∧ nextCursor cfg c = (if c = cfg.tableLen - 1 then 0 else c + 1)
    ∧ nextCursor cfg c < cfg.tableLen
    ∧ (cfg.tableLen = 1 → nextCursor cfg c = c)
    ∧ (cfg.tableLen = 2 ^ cursorWidth cfg → nextCursor cfg c = (c + 1) % 2 ^ cursorWidth cfg)

/-- The cursor wrap law (the spec derives it: R82). -/
def Obligations.CursorWrapLaw : Prop :=
  ∀ cfg : Config, 1 ≤ cfg.tableLen →
    (∀ c, c < cfg.tableLen → (nextCursor cfg)^[cfg.tableLen] c = c)
    ∧ (∀ k, (nextCursor cfg)^[k] 0 = k % cfg.tableLen)
    ∧ ∀ c j, c < cfg.tableLen → 0 < j → j < cfg.tableLen → (nextCursor cfg)^[j] c ≠ c

/-- `N` consecutive EDGEs from any cursor advance `LAST` by the table's sum and return the cursor (the spec derives
it: R86). This hardware's own sum is reduced at the width 16, which is presumed (R9, log 1). -/
def Obligations.TablePeriodLaw : Prop :=
  (∀ (s : State) (c l : Nat) (rest : List Input),
    s.cfg.wf = true → s.fsm = .armed → s.cursor = some c → c < s.cfg.tableLen → s.last = some l →
    s.inputs = List.replicate s.cfg.tableLen (present (encode .edge)) ++ rest →
    ∃ t : State, core.run s.cfg.tableLen s = .next t ∧ t.fsm = .armed ∧ t.cursor = some c
      ∧ t.last = some ((l + s.cfg.table.sum) % 2 ^ s.cfg.regWidth) ∧ t.inputs = rest)
  ∧ Config.hardware.table.sum % 2 ^ Config.hardware.regWidth = 30600

/-! A step -/

/-- A step runs the decoded command: what the ports present decodes to `i`, and the step is `exec i`, with the
schedule moved past it and the output ports of the transaction before it cleared (both the model's choice, logs 6 and 8).
-/
def Obligations.StepRunsDecodedCommand : Prop :=
  ∀ (s : State) (p : PortCycle) (rest : List Input) (i : Instr),
    s.cfg.wf = true → s.inputs = .cycle p :: rest → p.rst = false → p.cmdValid = true →
    decode s.cfg.regWidth p.command = .command i → i.wf s.cfg.regWidth = true →
    step s = exec i { s with inputs := rest, out := ⟨none, none, false⟩ }

/-- A word that is no command faults with its code before any effect (R66, R68, R130). The schedule and the cleared
outputs are the model's choice (logs 6 and 8). -/
def Obligations.StepFaultsRejectedWord : Prop :=
  ∀ (s : State) (c : Command) (rest : List Input),
    s.cfg.wf = true → s.inputs = present c :: rest → Live s →
    (decode s.cfg.regWidth c = .reject .reservedCmd → step s = .next
      { s with
        inputs := rest, out := ⟨none, none, false⟩, fsm := .faulted, fault := .reservedCmd
        hist := s.hist ++ [.faulted .reservedCmd c.cmd] })
    ∧ (decode s.cfg.regWidth c = .reject .context → step s = .next
      { s with
        inputs := rest, out := ⟨none, none, false⟩, fsm := .faulted, fault := .context
        hist := s.hist ++ [.faulted .context c.cmd] })

/-- A cycle without `cmd_valid_i` is no transaction (R61): no register changes and nothing is appended to `H`. That it
clears the output ports and moves the schedule on is the model's choice (logs 6 and 8). -/
def Obligations.IdleCycleChangesNothing : Prop :=
  ∀ (s : State) (p : PortCycle) (rest : List Input),
    s.cfg.wf = true → s.inputs = .cycle p :: rest → p.rst = false → p.cmdValid = false →
    step s = .next { s with inputs := rest, out := ⟨none, none, false⟩ }

/-- The dispatch (R140): exactly when `IE`, `SRC_EN` and `MF` are 1, no EDGE runs and the block is not faulted, the
platform issues EDGE; otherwise it issues nothing. That the schedule says when, and the cleared outputs, are
the model's choice (logs 6, 8 and 10). -/
def Obligations.DispatchIssuesEdge : Prop :=
  ∀ (s : State) (rest : List Input), s.cfg.wf = true → s.inputs = .dispatch :: rest →
    ((s.ie = true ∧ s.srcEn = true ∧ s.mf = true ∧ s.fsm ≠ .triggering ∧ s.fsm ≠ .faulted) →
      step s = exec .edge { s with inputs := rest, out := ⟨none, none, false⟩ })
    ∧ (¬ (s.ie = true ∧ s.srcEn = true ∧ s.mf = true ∧ s.fsm ≠ .triggering ∧ s.fsm ≠ .faulted) →
      step s = .next { s with inputs := rest, out := ⟨none, none, false⟩ })

/-- Two matches merged in `MF` cause one EDGE (R98, R150): after it a second opportunity dispatches nothing, unless
a match fell inside that EDGE. That ticks may pass inside, those of `handler`, is the model's choice (log 21). -/
def Obligations.MergedMatchesCauseOneEdge : Prop :=
  ∀ (s : State) (c l v : Nat) (rest : List Input),
    s.cfg.wf = true → s.fsm = .armed → s.cursor = some c → s.last = some l → valueAt s.cfg c = some v →
    s.ie = true → s.srcEn = true → s.mf = true →
    matchesDuringEdge s.cfg s.handler s.tcnt s.cmp (reArmAdd s.cfg l v) = 0 →
    s.inputs = .dispatch :: .dispatch :: rest →
    ∃ t : State, core.run 2 s = .next t ∧ t.cursor = some (nextCursor s.cfg c) ∧ t.last = some (reArmAdd s.cfg l v)
      ∧ t.mf = false ∧ t.pend = true ∧ edgeCount t.hist = edgeCount s.hist + 1 ∧ t.inputs = rest

/-- The platform calls (R33): each writes what its name says. The model's choices: that it writes nothing else (log
18), that the platform's own acknowledge appends no event (log 13), the length of an EDGE as an act of its own (log
21), the schedule and the cleared outputs (logs 6 and 8). -/
def Obligations.PlatformCalls : Prop :=
  ∀ (s : State) (rest : List Input), s.cfg.wf = true →
    (∀ on, s.inputs = .setIe on :: rest →
      step s = .next { s with ie := on, inputs := rest, out := ⟨none, none, false⟩ })
    ∧ (s.inputs = .enableToggle :: rest →
      step s = .next { s with toggleEn := true, inputs := rest, out := ⟨none, none, false⟩ })
    ∧ (s.inputs = .installHandler :: rest →
      step s = .next { s with srcEn := true, inputs := rest, out := ⟨none, none, false⟩ })
    ∧ (s.inputs = .ackMatchFlag :: rest →
      step s = .next { s with mf := false, inputs := rest, out := ⟨none, none, false⟩ })
    ∧ (s.inputs = .readCounter :: rest →
      step s = .next { s with counterRead := some s.tcnt, inputs := rest, out := ⟨none, none, false⟩ })
    ∧ ∀ h, s.inputs = .handler h :: rest →
      step s = .next { s with handler := h, inputs := rest, out := ⟨none, none, false⟩ }

/-- The table never changes (R30, R83): no step, a reset included, writes the configuration. That the other parameters
of R9 stand in it too and stay, one `MATCH_ON_WRITE` for the whole run, is the model's choice (logs 2 and 3). -/
def Obligations.TableNeverChanges : Prop :=
  ∀ s t : State, step s = .next t → t.cfg = s.cfg

/-- R36: the history is only appended to, except that a reset begins a new one (R170). -/
def Obligations.HistoryIsAppendOnly : Prop :=
  ∀ s t : State, step s = .next t →
    (∃ e, t.hist = s.hist ++ e) ∨ (t.hist = [] ∧ ∃ p rest, s.inputs = .cycle p :: rest ∧ p.rst = true)

/-- R64: after a step `rdata_o` has a value only where the step ran SIGRD or SIGRC, and then it is `PEND` as it
stood at the start; a wider host sees it zero-extended. -/
def Obligations.ReadDataOnlyInReads : Prop :=
  (∀ (s t : State) (b : Bool), step s = .next t → t.out.rdata = some b →
    b = s.pend ∧ ∃ p rest, s.inputs = .cycle p :: rest ∧ p.rst = false ∧ p.cmdValid = true
      ∧ (p.command.cmd = 0x04 ∨ p.command.cmd = 0x05))
  ∧ (∀ (s : State) (c : Command) (rest : List Input), s.cfg.wf = true → Live s → s.inputs = present c :: rest →
      c.cmd = 0x04 ∨ c.cmd = 0x05 → ∃ t, step s = .next t ∧ t.out.rdata = some s.pend)
  ∧ ∀ (s : State) (b : Bool) (n : Nat), 1 ≤ n → s.out.rdata = some b →
      ∃ v, s.rdataHost n = some v ∧ v.toNat = if b then 1 else 0

/-- Faults are precise (R130): a step into `FAULTED` records one code and the offending word and changes nothing
else. The schedule and the cleared outputs are the model's choice (logs 6 and 8). -/
def Obligations.FaultsArePrecise : Prop :=
  ∀ s t : State, step s = .next t → s.fsm ≠ .faulted → t.fsm = .faulted →
    ∃ (x : Input) (rest : List Input) (code : FaultCode) (w : BitVec 8), s.inputs = x :: rest ∧ code ≠ .noFault
      ∧ (x = .dispatch ∧ w = 0x82 ∨ ∃ p, x = .cycle p ∧ p.rst = false ∧ p.cmdValid = true ∧ p.command.cmd = w)
      ∧ t = { s with
          inputs := rest, out := ⟨none, none, false⟩, fsm := .faulted, fault := code
          hist := s.hist ++ [.faulted code w] }

/-- Only a reset leaves `FAULTED` (R24, R26, R130): until then the block's registers stay as the fault left them. -/
def Obligations.OnlyResetLeavesFaulted : Prop :=
  ∀ s t : State, step s = .next t → s.fsm = .faulted →
    (t.fsm = .faulted ∧ t.fault = s.fault ∧ t.cursor = s.cursor ∧ t.last = s.last ∧ t.pend = s.pend ∧ t.cmp = s.cmp)
    ∨ (t.fsm = .unarmed ∧ t.fault = .noFault ∧ ∃ p rest, s.inputs = .cycle p :: rest ∧ p.rst = true)

/-- The transitions of the state machine as steps show them (R24, R25): `TRIGGERING` stands inside one EDGE, so an
EDGE goes from `ARMED` to `ARMED` (log 11). The encodings of `FSM` and of `FAULT` (R24, R26, R131), as the ports
`fsm_o` and `fault_o` show them (R32). -/
def Obligations.FsmTransitions : Prop :=
  (∀ s t : State, step s = .next t → s.fsm ≠ .triggering → t.fsm ≠ s.fsm →
    (t.fsm = .unarmed ∧ ∃ p rest, s.inputs = .cycle p :: rest ∧ p.rst = true)
    ∨ (s.fsm = .unarmed ∧ t.fsm = .armed
        ∧ ∃ p rest, s.inputs = .cycle p :: rest ∧ p.rst = false ∧ p.cmdValid = true ∧ p.command.cmd = 0x01)
    ∨ (s.fsm ≠ .faulted ∧ t.fsm = .faulted))
  ∧ Fsm.bits .unarmed = 0b00 ∧ Fsm.bits .armed = 0b01 ∧ Fsm.bits .triggering = 0b10 ∧ Fsm.bits .faulted = 0b11
  ∧ FaultCode.bits .noFault = 0 ∧ FaultCode.bits .reservedCmd = 1 ∧ FaultCode.bits .context = 2
  ∧ FaultCode.bits .armTwice = 3 ∧ FaultCode.bits .armIrqEnabled = 4 ∧ FaultCode.bits .edgeUnarmed = 5
  ∧ ∀ s : State, s.fsmPort = s.fsm.bits ∧ s.faultPort = s.fault.bits

/-! Invariants every step keeps -/

/-- The register invariants (the spec derives them: R25, R27) hold in every launch and every step keeps them. -/
def Obligations.StepKeepsRegisterInvariant : Prop :=
  (∀ (cfg : Config) (l : Launch), RegisterInv (State.launch cfg l))
  ∧ ∀ s t : State, RegisterInv s → step s = .next t → RegisterInv t

/-- `FAULT` holds a code exactly in `FAULTED`, the code of the one fault of the history (R26, R130). -/
def Obligations.StepKeepsFaultInvariant : Prop :=
  ∀ s t : State, FaultInv s → step s = .next t → FaultInv t

/-- `PEND = 1` exactly (the spec derives it: R58) when a `Signalled` stands after the last `Cleared`, in every
launch and after every step. -/
def Obligations.StepKeepsSignalInvariant : Prop :=
  (∀ (cfg : Config) (l : Launch), SignalInv (State.launch cfg l))
  ∧ ∀ s t : State, SignalInv s → step s = .next t → SignalInv t

/-- While the block is armed its compare writes are a programmed schedule (R99), kept by every step. -/
def Obligations.StepKeepsScheduleInvariant : Prop :=
  ∀ s t : State, ScheduleInv s → step s = .next t → ScheduleInv t

/-- While the consumer clears with SIGRC only, no signal is erased unread (R114): kept by every step that does not
present SIGCLR. -/
def Obligations.SigrcErasesNothingUnread : Prop :=
  ∀ s t : State, SignalInv s → ReadBeforeClear s.hist → step s = .next t →
    (∀ p rest, s.inputs = .cycle p :: rest → p.cmdValid = true → p.command.cmd ≠ 0x03) →
    ReadBeforeClear t.hist

/-- Every register of `W` bits holds a value below `2^W` (R9, R20, R33), in every launch whose counter and compare
value do (R171), and every step keeps it: words are numbers in the model (log 1). -/
def Obligations.StepKeepsWordInvariant : Prop :=
  (∀ (cfg : Config) (l : Launch), l.wf cfg = true → WordInv (State.launch cfg l))
  ∧ ∀ s t : State, WordInv s → step s = .next t → WordInv t

/-! Laws of runs -/

/-- The programmed-schedule law (the spec derives it: R99): from an ARM, over any schedule without a reset that
leaves the block armed, the compare writes are the programmed schedule, one per EDGE after ARM's, and the cursor is
the number of EDGEs modulo `N`, whatever ticks pass between. -/
def Obligations.ProgrammedScheduleLaw : Prop :=
  ∀ (s : State) (now lead : Nat),
    s.cfg.wf = true → s.fsm = .unarmed → s.ie = false → cmpWrites s.hist = [] → NoReset s.inputs →
    ∃ s1, exec (.arm now lead) s = .next s1
      ∧ ∀ (n : Nat) (t : State), core.run n s1 = .next t → t.fsm = .armed →
        ∃ k, edgeCount t.hist = edgeCount s.hist + k
          ∧ cmpWrites t.hist = (List.range (k + 1)).map
              (fun j => (now + lead + intervalSum s.cfg j) % s.cfg.period)
          ∧ t.cursor = some (k % s.cfg.tableLen)

/-- The signal observation law (the spec derives it: R115): a SIGRD or SIGRC returns 1 exactly when an EDGE has
completed since the last clear or reset, and 0 otherwise. -/
def Obligations.SignalObservationLaw : Prop :=
  ∀ s : State, SignalInv s → Live s →
    (∃ t b, exec .sigrd s = .next t ∧ t.out.rdata = some b ∧ (b = true ↔ SignalledSinceClear s.hist))
    ∧ ∃ t b, exec .sigrc s = .next t ∧ t.out.rdata = some b ∧ (b = true ↔ SignalledSinceClear s.hist)

/-- R150: over `n` ticks with a fixed compare value the counter advances by `n` modulo `2^W`; matches fall where it
takes the value `CMP`, so every `2^W` ticks; each sets `MF`, and each inverts the pin once `TOGGLE_EN` is set. -/
def Obligations.TimerLaw : Prop :=
  ∀ (s : State) (n : Nat) (rest : List Input),
    s.cfg.wf = true → WordInv s → s.inputs = List.replicate n .tick ++ rest →
    ∃ (t : State) (m : Nat), core.run n s = .next t
      ∧ m = (n + s.cfg.period - ticksToMatch s.cfg s.tcnt s.cmp) / s.cfg.period
      ∧ t.tcnt = (s.tcnt + n) % s.cfg.period ∧ t.cmp = s.cmp ∧ t.inputs = rest
      ∧ matchCount t.hist = matchCount s.hist + m
      ∧ t.mf = (s.mf || decide (0 < m))
      ∧ t.pin = (s.pin ^^ (s.toggleEn && decide (m % 2 = 1)))
      ∧ t.fsm = s.fsm ∧ t.cursor = s.cursor ∧ t.last = s.last ∧ t.pend = s.pend ∧ t.fault = s.fault

/-- One tick (R150, R151): the exact next state, the toggle with its new level. That `Match` stands before `Toggle` is
the model's choice (log 20), so are the schedule and the cleared outputs (logs 6 and 8). -/
def Obligations.OneTick : Prop :=
  ∀ (s : State) (x : Nat) (rest : List Input),
    s.cfg.wf = true → s.inputs = .tick :: rest → x = (s.tcnt + 1) % 2 ^ s.cfg.regWidth →
    (x ≠ s.cmp → step s = .next { s with tcnt := x, inputs := rest, out := ⟨none, none, false⟩ })
    ∧ (x = s.cmp → s.toggleEn = false →
      step s = .next
        { s with
          tcnt := x, mf := true, hist := s.hist ++ [.matched], inputs := rest, out := ⟨none, none, false⟩ })
    ∧ (x = s.cmp → s.toggleEn = true →
      step s = .next
        { s with
          tcnt := x, mf := true, pin := !s.pin, hist := s.hist ++ [.matched, .toggled (!s.pin)]
          inputs := rest, out := ⟨none, none, false⟩ })

/-- The realised edge times (the spec derives them: R154): after a match at `P = LAST` whose EDGE writes the compare
register `Lk` ticks later, the next match comes `δ` ticks after the write, so `Lk + δ` after the match: the interval
itself if `Lk` is shorter, the interval and one full period if `Lk` is longer, and by `MATCH_ON_WRITE` if they are
equal. That `Lk` is the ticks of the schedule before the dispatch and those of `handler` inside the EDGE is the
model's reading (logs 16 and 21). -/
def Obligations.RealisedEdgeTimes : Prop :=
  ∀ (s : State) (c L Lk d P T : Nat) (rest : List Input),
    s.cfg.wf = true → WordInv s → s.fsm = .armed → s.cursor = some c → c < s.cfg.tableLen → s.last = some P →
    s.cmp = P → s.tcnt = P → s.mf = true → s.ie = true → s.srcEn = true → T = s.cfg.table.getD c 0 →
    Lk = L + s.handler.toWrite → Lk < s.cfg.period →
    s.handler.toSignal + d < writeToMatch s.cfg T Lk + s.cfg.period →
    s.inputs = List.replicate L .tick ++ .dispatch :: (List.replicate d .tick ++ rest) →
    ∃ t : State, core.run (L + 1 + d) s = .next t ∧ t.inputs = rest
      ∧ t.last = some ((P + T) % s.cfg.period) ∧ t.cmp = (P + T) % s.cfg.period
      ∧ matchCount t.hist
          = matchCount s.hist + (if s.handler.toSignal + d < writeToMatch s.cfg T Lk then 0 else 1)
      ∧ (s.handler.toSignal + d = writeToMatch s.cfg T Lk → t.tcnt = t.cmp)
      ∧ (Lk < T → Lk + writeToMatch s.cfg T Lk = T)
      ∧ (T < Lk → Lk + writeToMatch s.cfg T Lk = s.cfg.period + T)
      ∧ (T = Lk → writeToMatch s.cfg T Lk = if s.cfg.matchOnWrite then 0 else s.cfg.period)

/-- The first match after ARM (the spec derives it: R155), when the foreground read `now = TCNT` and ARM wrote `L0`
ticks later. That the `L0` ticks stand between the read and ARM, none inside a command, is the model's reading
(log 16). -/
def Obligations.FirstEdgeTime : Prop :=
  ∀ (s : State) (now lead L0 d : Nat) (rest : List Input),
    s.cfg.wf = true → WordInv s → s.fsm = .unarmed → s.ie = false → s.tcnt = now → lead < s.cfg.period →
    L0 < s.cfg.period → d < writeToMatch s.cfg lead L0 + s.cfg.period →
    s.inputs = .readCounter ::
      (List.replicate L0 .tick ++ present (encode (.arm now lead)) :: (List.replicate d .tick ++ rest)) →
    ∃ s1 t : State, core.run (1 + L0) s = .next s1 ∧ s1.counterRead = some now
      ∧ core.run (1 + d) s1 = .next t ∧ t.inputs = rest ∧ t.fsm = .armed
      ∧ t.last = some ((now + lead) % s.cfg.period)
      ∧ matchCount t.hist = matchCount s1.hist + (if d < writeToMatch s.cfg lead L0 then 0 else 1)
      ∧ (d = writeToMatch s.cfg lead L0 → t.tcnt = t.cmp)
      ∧ (L0 < lead → L0 + writeToMatch s.cfg lead L0 = lead)
      ∧ (lead < L0 → L0 + writeToMatch s.cfg lead L0 = s.cfg.period + lead)
      ∧ (lead = L0 → writeToMatch s.cfg lead L0 = if s.cfg.matchOnWrite then 0 else s.cfg.period)

/-- The boot sequence (R175) arms the block from every launch, whatever the platform's state was, with no stale match
left (unless ARM's own compare write matched at once, R153). That no tick passes between its steps, on which the
counter and the match flag it ends with rest, is the model's choice (log 24), and so are the order of the calls of
step 2 (log 25) and that its acknowledge appends no event (log 13). -/
def Obligations.BootArms : Prop :=
  ∀ (cfg : Config) (l : Launch) (lead P : Nat) (rest : List Input),
    cfg.wf = true → l.wf cfg = true → lead < cfg.period → P = (l.tcnt + lead) % cfg.period →
    ∃ t : State, core.run 7 { State.launch cfg l with inputs := bootSequence l.tcnt lead ++ rest } = .next t
      ∧ t.fsm = .armed ∧ t.fault = .noFault ∧ t.pend = false ∧ t.cursor = some 0 ∧ t.last = some P ∧ t.cmp = P
      ∧ t.tcnt = l.tcnt ∧ t.counterRead = some l.tcnt
      ∧ t.ie = true ∧ t.srcEn = true ∧ t.toggleEn = true ∧ t.mf = (cfg.matchOnWrite && decide (lead = 0))
      ∧ cmpWrites t.hist = [P] ∧ NoFaulted t ∧ t.inputs = rest

/-- A boot that leaves a stale match (the spec derives it: R176): the dispatch replaces `P_0` by `P_1` before the
counter reaches it, and the signal is set with no edge behind it. That EDGE takes any number of ticks inside, those of
`handler`, without a match among them, and that the counter moves on by them, is the model's choice (log 21); R176
says nothing of them; that no tick passes between the boot steps (log 24) and the order of the calls of step 2 (log
25) are the model's choices too. With `IE = 1` left on, ARM faults instead. -/
def Obligations.StaleMatchLosesFirstEdge : Prop :=
  (∀ (cfg : Config) (l : Launch) (h : HandlerTicks) (lead v P0 P1 : Nat) (rest : List Input),
    cfg.wf = true → l.wf cfg = true → lead < cfg.period → l.mf = true → valueAt cfg 0 = some v →
    P0 = (l.tcnt + lead) % cfg.period → P1 = (P0 + v) % cfg.period →
    (cfg.matchOnWrite = false ∨ lead ≠ 0) → matchesDuringEdge cfg h l.tcnt P0 P1 = 0 →
    ∃ t : State, core.run 6 { State.launch cfg l with
        handler := h
        inputs := .setIe false :: .enableToggle :: .installHandler
          :: present (encode (.arm l.tcnt lead)) :: .setIe true :: .dispatch :: rest } = .next t
      ∧ t.cmp = P1 ∧ t.pend = true ∧ t.pin = l.pin ∧ t.mf = false
      ∧ t.tcnt = (l.tcnt + h.toWrite + h.toSignal) % cfg.period
      ∧ cmpWrites t.hist = [P0, P1] ∧ matchCount t.hist = 0 ∧ t.inputs = rest)
  ∧ ∀ (cfg : Config) (l : Launch) (now lead : Nat) (rest : List Input), cfg.wf = true → l.ie = true →
      ∃ t, step { State.launch cfg l with inputs := present (encode (.arm now lead)) :: rest } = .next t
        ∧ t.fsm = .faulted ∧ t.fault = .armIrqEnabled

/-! The assembler -/

/-- R71: the pseudo-instructions, and that the waiting ones repeat a read exactly while it returns 0. Beside them, of
R70: an operand outside `0 .. 2^W − 1` is refused, not reduced, and ARM's line presents ARM. -/
def Obligations.AssemblerExpansions : Prop :=
  (∀ w now lead, Asm.expand w (.arm now lead) = none ↔ 2 ^ w ≤ now ∨ 2 ^ w ≤ lead)
  ∧ (∀ w now lead, now < 2 ^ w → lead < 2 ^ w →
      Asm.expand w (.arm now lead) = some [.once (present (encode (.arm now lead)))])
  ∧ (∀ w, Asm.expand w .waitsig = some [.untilOne (present ⟨0x04, 0, 0⟩)]
      ∧ Asm.expand w .consume = some [.once (present ⟨0x03, 0, 0⟩), .untilOne (present ⟨0x04, 0, 0⟩)]
      ∧ Asm.expand w .takesig = some [.untilOne (present ⟨0x05, 0, 0⟩)]
      ∧ Asm.expand w .irqoff = some [.once (.setIe false)] ∧ Asm.expand w .irqon = some [.once (.setIe true)])
  ∧ ∀ (x : Input) (more : List HostStep) (s : State),
      hostNext (.untilOne x) more s = if s.out.rdata = some false then .untilOne x :: more else more
end

