-- ==== Sys2Proof/Laws/State.lean ====
section
/-! SUPPORT. What each update of the state leaves in each field; every lemma is true by rfl. -/

namespace Sys2Proof.Machine

variable (s : State)

@[simp] theorem emit_cfg (e : Event) : (emit e s).cfg = s.cfg := rfl
@[simp] theorem emit_fsm (e : Event) : (emit e s).fsm = s.fsm := rfl
@[simp] theorem emit_cursor (e : Event) : (emit e s).cursor = s.cursor := rfl
@[simp] theorem emit_last (e : Event) : (emit e s).last = s.last := rfl
@[simp] theorem emit_pend (e : Event) : (emit e s).pend = s.pend := rfl
@[simp] theorem emit_fault (e : Event) : (emit e s).fault = s.fault := rfl
@[simp] theorem emit_hist (e : Event) : (emit e s).hist = s.hist ++ [e] := rfl
@[simp] theorem emit_tcnt (e : Event) : (emit e s).tcnt = s.tcnt := rfl
@[simp] theorem emit_cmp (e : Event) : (emit e s).cmp = s.cmp := rfl
@[simp] theorem emit_mf (e : Event) : (emit e s).mf = s.mf := rfl
@[simp] theorem emit_pin (e : Event) : (emit e s).pin = s.pin := rfl
@[simp] theorem emit_ie (e : Event) : (emit e s).ie = s.ie := rfl
@[simp] theorem emit_srcEn (e : Event) : (emit e s).srcEn = s.srcEn := rfl
@[simp] theorem emit_toggleEn (e : Event) : (emit e s).toggleEn = s.toggleEn := rfl
@[simp] theorem emit_out (e : Event) : (emit e s).out = s.out := rfl
@[simp] theorem emit_counterRead (e : Event) : (emit e s).counterRead = s.counterRead := rfl
@[simp] theorem emit_handler (e : Event) : (emit e s).handler = s.handler := rfl
@[simp] theorem emit_inputs (e : Event) : (emit e s).inputs = s.inputs := rfl

@[simp] theorem toFsm_cfg (f : Fsm) : (toFsm f s).cfg = s.cfg := rfl
@[simp] theorem toFsm_fsm (f : Fsm) : (toFsm f s).fsm = f := rfl
@[simp] theorem toFsm_cursor (f : Fsm) : (toFsm f s).cursor = s.cursor := rfl
@[simp] theorem toFsm_last (f : Fsm) : (toFsm f s).last = s.last := rfl
@[simp] theorem toFsm_pend (f : Fsm) : (toFsm f s).pend = s.pend := rfl
@[simp] theorem toFsm_fault (f : Fsm) : (toFsm f s).fault = s.fault := rfl
@[simp] theorem toFsm_hist (f : Fsm) : (toFsm f s).hist = s.hist := rfl
@[simp] theorem toFsm_tcnt (f : Fsm) : (toFsm f s).tcnt = s.tcnt := rfl
@[simp] theorem toFsm_cmp (f : Fsm) : (toFsm f s).cmp = s.cmp := rfl
@[simp] theorem toFsm_mf (f : Fsm) : (toFsm f s).mf = s.mf := rfl
@[simp] theorem toFsm_pin (f : Fsm) : (toFsm f s).pin = s.pin := rfl
@[simp] theorem toFsm_ie (f : Fsm) : (toFsm f s).ie = s.ie := rfl
@[simp] theorem toFsm_srcEn (f : Fsm) : (toFsm f s).srcEn = s.srcEn := rfl
@[simp] theorem toFsm_toggleEn (f : Fsm) : (toFsm f s).toggleEn = s.toggleEn := rfl
@[simp] theorem toFsm_out (f : Fsm) : (toFsm f s).out = s.out := rfl
@[simp] theorem toFsm_counterRead (f : Fsm) : (toFsm f s).counterRead = s.counterRead := rfl
@[simp] theorem toFsm_handler (f : Fsm) : (toFsm f s).handler = s.handler := rfl
@[simp] theorem toFsm_inputs (f : Fsm) : (toFsm f s).inputs = s.inputs := rfl

@[simp] theorem setLast_cfg (t : Nat) : (setLast t s).cfg = s.cfg := rfl
@[simp] theorem setLast_fsm (t : Nat) : (setLast t s).fsm = s.fsm := rfl
@[simp] theorem setLast_cursor (t : Nat) : (setLast t s).cursor = s.cursor := rfl
@[simp] theorem setLast_last (t : Nat) : (setLast t s).last = some t := rfl
@[simp] theorem setLast_pend (t : Nat) : (setLast t s).pend = s.pend := rfl
@[simp] theorem setLast_fault (t : Nat) : (setLast t s).fault = s.fault := rfl
@[simp] theorem setLast_hist (t : Nat) : (setLast t s).hist = s.hist := rfl
@[simp] theorem setLast_tcnt (t : Nat) : (setLast t s).tcnt = s.tcnt := rfl
@[simp] theorem setLast_cmp (t : Nat) : (setLast t s).cmp = s.cmp := rfl
@[simp] theorem setLast_mf (t : Nat) : (setLast t s).mf = s.mf := rfl
@[simp] theorem setLast_pin (t : Nat) : (setLast t s).pin = s.pin := rfl
@[simp] theorem setLast_ie (t : Nat) : (setLast t s).ie = s.ie := rfl
@[simp] theorem setLast_srcEn (t : Nat) : (setLast t s).srcEn = s.srcEn := rfl
@[simp] theorem setLast_toggleEn (t : Nat) : (setLast t s).toggleEn = s.toggleEn := rfl
@[simp] theorem setLast_out (t : Nat) : (setLast t s).out = s.out := rfl
@[simp] theorem setLast_counterRead (t : Nat) : (setLast t s).counterRead = s.counterRead := rfl
@[simp] theorem setLast_handler (t : Nat) : (setLast t s).handler = s.handler := rfl
@[simp] theorem setLast_inputs (t : Nat) : (setLast t s).inputs = s.inputs := rfl

@[simp] theorem setCursor_cfg (c : Nat) : (setCursor c s).cfg = s.cfg := rfl
@[simp] theorem setCursor_fsm (c : Nat) : (setCursor c s).fsm = s.fsm := rfl
@[simp] theorem setCursor_cursor (c : Nat) : (setCursor c s).cursor = some c := rfl
@[simp] theorem setCursor_last (c : Nat) : (setCursor c s).last = s.last := rfl
@[simp] theorem setCursor_pend (c : Nat) : (setCursor c s).pend = s.pend := rfl
@[simp] theorem setCursor_fault (c : Nat) : (setCursor c s).fault = s.fault := rfl
@[simp] theorem setCursor_hist (c : Nat) : (setCursor c s).hist = s.hist := rfl
@[simp] theorem setCursor_tcnt (c : Nat) : (setCursor c s).tcnt = s.tcnt := rfl
@[simp] theorem setCursor_cmp (c : Nat) : (setCursor c s).cmp = s.cmp := rfl
@[simp] theorem setCursor_mf (c : Nat) : (setCursor c s).mf = s.mf := rfl
@[simp] theorem setCursor_pin (c : Nat) : (setCursor c s).pin = s.pin := rfl
@[simp] theorem setCursor_ie (c : Nat) : (setCursor c s).ie = s.ie := rfl
@[simp] theorem setCursor_srcEn (c : Nat) : (setCursor c s).srcEn = s.srcEn := rfl
@[simp] theorem setCursor_toggleEn (c : Nat) : (setCursor c s).toggleEn = s.toggleEn := rfl
@[simp] theorem setCursor_out (c : Nat) : (setCursor c s).out = s.out := rfl
@[simp] theorem setCursor_counterRead (c : Nat) : (setCursor c s).counterRead = s.counterRead := rfl
@[simp] theorem setCursor_handler (c : Nat) : (setCursor c s).handler = s.handler := rfl
@[simp] theorem setCursor_inputs (c : Nat) : (setCursor c s).inputs = s.inputs := rfl

@[simp] theorem signal_cfg : (signal s).cfg = s.cfg := rfl
@[simp] theorem signal_fsm : (signal s).fsm = s.fsm := rfl
@[simp] theorem signal_cursor : (signal s).cursor = s.cursor := rfl
@[simp] theorem signal_last : (signal s).last = s.last := rfl
@[simp] theorem signal_pend : (signal s).pend = true := rfl
@[simp] theorem signal_fault : (signal s).fault = s.fault := rfl
@[simp] theorem signal_hist : (signal s).hist = s.hist ++ [.signalled] := rfl
@[simp] theorem signal_tcnt : (signal s).tcnt = s.tcnt := rfl
@[simp] theorem signal_cmp : (signal s).cmp = s.cmp := rfl
@[simp] theorem signal_mf : (signal s).mf = s.mf := rfl
@[simp] theorem signal_pin : (signal s).pin = s.pin := rfl
@[simp] theorem signal_ie : (signal s).ie = s.ie := rfl
@[simp] theorem signal_srcEn : (signal s).srcEn = s.srcEn := rfl
@[simp] theorem signal_toggleEn : (signal s).toggleEn = s.toggleEn := rfl
@[simp] theorem signal_out : (signal s).out = s.out := rfl
@[simp] theorem signal_counterRead : (signal s).counterRead = s.counterRead := rfl
@[simp] theorem signal_handler : (signal s).handler = s.handler := rfl
@[simp] theorem signal_inputs : (signal s).inputs = s.inputs := rfl

@[simp] theorem clearSignal_cfg : (clearSignal s).cfg = s.cfg := rfl
@[simp] theorem clearSignal_fsm : (clearSignal s).fsm = s.fsm := rfl
@[simp] theorem clearSignal_cursor : (clearSignal s).cursor = s.cursor := rfl
@[simp] theorem clearSignal_last : (clearSignal s).last = s.last := rfl
@[simp] theorem clearSignal_pend : (clearSignal s).pend = false := rfl
@[simp] theorem clearSignal_fault : (clearSignal s).fault = s.fault := rfl
@[simp] theorem clearSignal_hist : (clearSignal s).hist = s.hist ++ [.cleared] := rfl
@[simp] theorem clearSignal_tcnt : (clearSignal s).tcnt = s.tcnt := rfl
@[simp] theorem clearSignal_cmp : (clearSignal s).cmp = s.cmp := rfl
@[simp] theorem clearSignal_mf : (clearSignal s).mf = s.mf := rfl
@[simp] theorem clearSignal_pin : (clearSignal s).pin = s.pin := rfl
@[simp] theorem clearSignal_ie : (clearSignal s).ie = s.ie := rfl
@[simp] theorem clearSignal_srcEn : (clearSignal s).srcEn = s.srcEn := rfl
@[simp] theorem clearSignal_toggleEn : (clearSignal s).toggleEn = s.toggleEn := rfl
@[simp] theorem clearSignal_out : (clearSignal s).out = s.out := rfl
@[simp] theorem clearSignal_counterRead : (clearSignal s).counterRead = s.counterRead := rfl
@[simp] theorem clearSignal_handler : (clearSignal s).handler = s.handler := rfl
@[simp] theorem clearSignal_inputs : (clearSignal s).inputs = s.inputs := rfl

@[simp] theorem returnBit_cfg (b : Bool) : (returnBit b s).cfg = s.cfg := rfl
@[simp] theorem returnBit_fsm (b : Bool) : (returnBit b s).fsm = s.fsm := rfl
@[simp] theorem returnBit_cursor (b : Bool) : (returnBit b s).cursor = s.cursor := rfl
@[simp] theorem returnBit_last (b : Bool) : (returnBit b s).last = s.last := rfl
@[simp] theorem returnBit_pend (b : Bool) : (returnBit b s).pend = s.pend := rfl
@[simp] theorem returnBit_fault (b : Bool) : (returnBit b s).fault = s.fault := rfl
@[simp] theorem returnBit_hist (b : Bool) : (returnBit b s).hist = s.hist ++ [.read b] := rfl
@[simp] theorem returnBit_tcnt (b : Bool) : (returnBit b s).tcnt = s.tcnt := rfl
@[simp] theorem returnBit_cmp (b : Bool) : (returnBit b s).cmp = s.cmp := rfl
@[simp] theorem returnBit_mf (b : Bool) : (returnBit b s).mf = s.mf := rfl
@[simp] theorem returnBit_pin (b : Bool) : (returnBit b s).pin = s.pin := rfl
@[simp] theorem returnBit_ie (b : Bool) : (returnBit b s).ie = s.ie := rfl
@[simp] theorem returnBit_srcEn (b : Bool) : (returnBit b s).srcEn = s.srcEn := rfl
@[simp] theorem returnBit_toggleEn (b : Bool) : (returnBit b s).toggleEn = s.toggleEn := rfl
@[simp] theorem returnBit_out (b : Bool) : (returnBit b s).out = { s.out with rdata := some b } := rfl
@[simp] theorem returnBit_counterRead (b : Bool) : (returnBit b s).counterRead = s.counterRead := rfl
@[simp] theorem returnBit_handler (b : Bool) : (returnBit b s).handler = s.handler := rfl
@[simp] theorem returnBit_inputs (b : Bool) : (returnBit b s).inputs = s.inputs := rfl

@[simp] theorem raiseFault_cfg (code : FaultCode) (w : BitVec 8) : (raiseFault code w s).cfg = s.cfg := rfl
@[simp] theorem raiseFault_fsm (code : FaultCode) (w : BitVec 8) : (raiseFault code w s).fsm = .faulted := rfl
@[simp] theorem raiseFault_cursor (code : FaultCode) (w : BitVec 8) : (raiseFault code w s).cursor = s.cursor := rfl
@[simp] theorem raiseFault_last (code : FaultCode) (w : BitVec 8) : (raiseFault code w s).last = s.last := rfl
@[simp] theorem raiseFault_pend (code : FaultCode) (w : BitVec 8) : (raiseFault code w s).pend = s.pend := rfl
@[simp] theorem raiseFault_fault (code : FaultCode) (w : BitVec 8) : (raiseFault code w s).fault = code := rfl
@[simp] theorem raiseFault_hist (code : FaultCode) (w : BitVec 8) : (raiseFault code w s).hist = s.hist ++ [.faulted code w] := rfl
@[simp] theorem raiseFault_tcnt (code : FaultCode) (w : BitVec 8) : (raiseFault code w s).tcnt = s.tcnt := rfl
@[simp] theorem raiseFault_cmp (code : FaultCode) (w : BitVec 8) : (raiseFault code w s).cmp = s.cmp := rfl
@[simp] theorem raiseFault_mf (code : FaultCode) (w : BitVec 8) : (raiseFault code w s).mf = s.mf := rfl
@[simp] theorem raiseFault_pin (code : FaultCode) (w : BitVec 8) : (raiseFault code w s).pin = s.pin := rfl
@[simp] theorem raiseFault_ie (code : FaultCode) (w : BitVec 8) : (raiseFault code w s).ie = s.ie := rfl
@[simp] theorem raiseFault_srcEn (code : FaultCode) (w : BitVec 8) : (raiseFault code w s).srcEn = s.srcEn := rfl
@[simp] theorem raiseFault_toggleEn (code : FaultCode) (w : BitVec 8) : (raiseFault code w s).toggleEn = s.toggleEn := rfl
@[simp] theorem raiseFault_out (code : FaultCode) (w : BitVec 8) : (raiseFault code w s).out = s.out := rfl
@[simp] theorem raiseFault_counterRead (code : FaultCode) (w : BitVec 8) : (raiseFault code w s).counterRead = s.counterRead := rfl
@[simp] theorem raiseFault_handler (code : FaultCode) (w : BitVec 8) : (raiseFault code w s).handler = s.handler := rfl
@[simp] theorem raiseFault_inputs (code : FaultCode) (w : BitVec 8) : (raiseFault code w s).inputs = s.inputs := rfl

@[simp] theorem acknowledge_cfg : (acknowledge s).cfg = s.cfg := rfl
@[simp] theorem acknowledge_fsm : (acknowledge s).fsm = s.fsm := rfl
@[simp] theorem acknowledge_cursor : (acknowledge s).cursor = s.cursor := rfl
@[simp] theorem acknowledge_last : (acknowledge s).last = s.last := rfl
@[simp] theorem acknowledge_pend : (acknowledge s).pend = s.pend := rfl
@[simp] theorem acknowledge_fault : (acknowledge s).fault = s.fault := rfl
@[simp] theorem acknowledge_hist : (acknowledge s).hist = s.hist ++ [.acked] := rfl
@[simp] theorem acknowledge_tcnt : (acknowledge s).tcnt = s.tcnt := rfl
@[simp] theorem acknowledge_cmp : (acknowledge s).cmp = s.cmp := rfl
@[simp] theorem acknowledge_mf : (acknowledge s).mf = false := rfl
@[simp] theorem acknowledge_pin : (acknowledge s).pin = s.pin := rfl
@[simp] theorem acknowledge_ie : (acknowledge s).ie = s.ie := rfl
@[simp] theorem acknowledge_srcEn : (acknowledge s).srcEn = s.srcEn := rfl
@[simp] theorem acknowledge_toggleEn : (acknowledge s).toggleEn = s.toggleEn := rfl
@[simp] theorem acknowledge_out : (acknowledge s).out = { s.out with ack := true } := rfl
@[simp] theorem acknowledge_counterRead : (acknowledge s).counterRead = s.counterRead := rfl
@[simp] theorem acknowledge_handler : (acknowledge s).handler = s.handler := rfl
@[simp] theorem acknowledge_inputs : (acknowledge s).inputs = s.inputs := rfl

@[simp] theorem resetBlock_cfg : (resetBlock s).cfg = s.cfg := rfl
@[simp] theorem resetBlock_fsm : (resetBlock s).fsm = .unarmed := rfl
@[simp] theorem resetBlock_cursor : (resetBlock s).cursor = none := rfl
@[simp] theorem resetBlock_last : (resetBlock s).last = none := rfl
@[simp] theorem resetBlock_pend : (resetBlock s).pend = false := rfl
@[simp] theorem resetBlock_fault : (resetBlock s).fault = .noFault := rfl
@[simp] theorem resetBlock_hist : (resetBlock s).hist = [] := rfl
@[simp] theorem resetBlock_tcnt : (resetBlock s).tcnt = s.tcnt := rfl
@[simp] theorem resetBlock_cmp : (resetBlock s).cmp = s.cmp := rfl
@[simp] theorem resetBlock_mf : (resetBlock s).mf = s.mf := rfl
@[simp] theorem resetBlock_pin : (resetBlock s).pin = s.pin := rfl
@[simp] theorem resetBlock_ie : (resetBlock s).ie = s.ie := rfl
@[simp] theorem resetBlock_srcEn : (resetBlock s).srcEn = s.srcEn := rfl
@[simp] theorem resetBlock_toggleEn : (resetBlock s).toggleEn = s.toggleEn := rfl
@[simp] theorem resetBlock_out : (resetBlock s).out = s.out := rfl
@[simp] theorem resetBlock_counterRead : (resetBlock s).counterRead = s.counterRead := rfl
@[simp] theorem resetBlock_handler : (resetBlock s).handler = s.handler := rfl
@[simp] theorem resetBlock_inputs : (resetBlock s).inputs = s.inputs := rfl

@[simp] theorem beginCycle_cfg (rest : List Input) : (beginCycle rest s).cfg = s.cfg := rfl
@[simp] theorem beginCycle_fsm (rest : List Input) : (beginCycle rest s).fsm = s.fsm := rfl
@[simp] theorem beginCycle_cursor (rest : List Input) : (beginCycle rest s).cursor = s.cursor := rfl
@[simp] theorem beginCycle_last (rest : List Input) : (beginCycle rest s).last = s.last := rfl
@[simp] theorem beginCycle_pend (rest : List Input) : (beginCycle rest s).pend = s.pend := rfl
@[simp] theorem beginCycle_fault (rest : List Input) : (beginCycle rest s).fault = s.fault := rfl
@[simp] theorem beginCycle_hist (rest : List Input) : (beginCycle rest s).hist = s.hist := rfl
@[simp] theorem beginCycle_tcnt (rest : List Input) : (beginCycle rest s).tcnt = s.tcnt := rfl
@[simp] theorem beginCycle_cmp (rest : List Input) : (beginCycle rest s).cmp = s.cmp := rfl
@[simp] theorem beginCycle_mf (rest : List Input) : (beginCycle rest s).mf = s.mf := rfl
@[simp] theorem beginCycle_pin (rest : List Input) : (beginCycle rest s).pin = s.pin := rfl
@[simp] theorem beginCycle_ie (rest : List Input) : (beginCycle rest s).ie = s.ie := rfl
@[simp] theorem beginCycle_srcEn (rest : List Input) : (beginCycle rest s).srcEn = s.srcEn := rfl
@[simp] theorem beginCycle_toggleEn (rest : List Input) : (beginCycle rest s).toggleEn = s.toggleEn := rfl
@[simp] theorem beginCycle_out (rest : List Input) : (beginCycle rest s).out = Outputs.idle := rfl
@[simp] theorem beginCycle_counterRead (rest : List Input) : (beginCycle rest s).counterRead = s.counterRead := rfl
@[simp] theorem beginCycle_handler (rest : List Input) : (beginCycle rest s).handler = s.handler := rfl
@[simp] theorem beginCycle_inputs (rest : List Input) : (beginCycle rest s).inputs = rest := rfl

end Sys2Proof.Machine
end

