-- ==== Sys2Proof/Laws/Histories.lean ====
section
/-! SUPPORT. How the readings of a history (compare writes, faults, signals, matches) grow with one more event. -/

namespace Sys2Proof.Machine

@[simp] theorem cmpWrites_nil : cmpWrites [] = [] := rfl
@[simp] theorem cmpWrites_append (a b : List Event) : cmpWrites (a ++ b) = cmpWrites a ++ cmpWrites b :=
  List.filterMap_append
@[simp] theorem cmpWrites_cmpWritten (v : Nat) (h : List Event) :
    cmpWrites (.cmpWritten v :: h) = v :: cmpWrites h := rfl
@[simp] theorem cmpWrites_acked (h : List Event) : cmpWrites (.acked :: h) = cmpWrites h := rfl
@[simp] theorem cmpWrites_signalled (h : List Event) : cmpWrites (.signalled :: h) = cmpWrites h := rfl
@[simp] theorem cmpWrites_cleared (h : List Event) : cmpWrites (.cleared :: h) = cmpWrites h := rfl
@[simp] theorem cmpWrites_read (b : Bool) (h : List Event) : cmpWrites (.read b :: h) = cmpWrites h := rfl
@[simp] theorem cmpWrites_faulted (k : FaultCode) (w : BitVec 8) (h : List Event) :
    cmpWrites (.faulted k w :: h) = cmpWrites h := rfl
@[simp] theorem cmpWrites_matched (h : List Event) : cmpWrites (.matched :: h) = cmpWrites h := rfl
@[simp] theorem cmpWrites_toggled (l : Bool) (h : List Event) : cmpWrites (.toggled l :: h) = cmpWrites h := rfl

@[simp] theorem faultCodes_nil : faultCodes [] = [] := rfl
@[simp] theorem faultCodes_append (a b : List Event) : faultCodes (a ++ b) = faultCodes a ++ faultCodes b :=
  List.filterMap_append
@[simp] theorem faultCodes_faulted (k : FaultCode) (w : BitVec 8) (h : List Event) :
    faultCodes (.faulted k w :: h) = k :: faultCodes h := rfl
@[simp] theorem faultCodes_cmpWritten (v : Nat) (h : List Event) :
    faultCodes (.cmpWritten v :: h) = faultCodes h := rfl
@[simp] theorem faultCodes_acked (h : List Event) : faultCodes (.acked :: h) = faultCodes h := rfl
@[simp] theorem faultCodes_signalled (h : List Event) : faultCodes (.signalled :: h) = faultCodes h := rfl
@[simp] theorem faultCodes_cleared (h : List Event) : faultCodes (.cleared :: h) = faultCodes h := rfl
@[simp] theorem faultCodes_read (b : Bool) (h : List Event) : faultCodes (.read b :: h) = faultCodes h := rfl
@[simp] theorem faultCodes_matched (h : List Event) : faultCodes (.matched :: h) = faultCodes h := rfl
@[simp] theorem faultCodes_toggled (l : Bool) (h : List Event) : faultCodes (.toggled l :: h) = faultCodes h := rfl

@[simp] theorem matchCount_nil : matchCount [] = 0 := rfl
@[simp] theorem matchCount_append (a b : List Event) : matchCount (a ++ b) = matchCount a + matchCount b :=
  List.count_append

@[simp] theorem edgeCount_nil : edgeCount [] = 0 := rfl
@[simp] theorem edgeCount_append (a b : List Event) : edgeCount (a ++ b) = edgeCount a + edgeCount b :=
  List.count_append

@[simp] theorem edgeCount_signalled (h : List Event) : edgeCount (.signalled :: h) = edgeCount h + 1 :=
  List.count_cons_self
@[simp] theorem edgeCount_other {e : Event} (he : e ≠ .signalled) (h : List Event) :
    edgeCount (e :: h) = edgeCount h := List.count_cons_of_ne he
@[simp] theorem matchCount_matched (h : List Event) : matchCount (.matched :: h) = matchCount h + 1 :=
  List.count_cons_self
@[simp] theorem matchCount_other {e : Event} (he : e ≠ .matched) (h : List Event) :
    matchCount (e :: h) = matchCount h := List.count_cons_of_ne he

theorem not_signalledSinceClear_nil : ¬ SignalledSinceClear [] := by
  rintro ⟨a, b, h, -⟩
  simp at h

/-- A signal makes the reading true. -/
theorem signalledSinceClear_signalled (h : List Event) : SignalledSinceClear (h ++ [.signalled]) :=
  ⟨h, [], rfl, by simp⟩

/-- A clear makes it false. -/
theorem not_signalledSinceClear_cleared (h : List Event) : ¬ SignalledSinceClear (h ++ [.cleared]) := by
  rintro ⟨a, b, he, hb⟩
  rcases List.eq_nil_or_concat' b with rfl | ⟨b', e, rfl⟩
  · cases (List.append_inj' he rfl).2
  · have he' : h ++ [Event.cleared] = (a ++ Event.signalled :: b') ++ [e] := by rw [he]; simp
    cases (List.append_inj' he' rfl).2
    exact hb (by simp)

/-- Any other event leaves it as it was. -/
theorem signalledSinceClear_other (h : List Event) {e : Event} (h1 : e ≠ .signalled) (h2 : e ≠ .cleared) :
    SignalledSinceClear (h ++ [e]) ↔ SignalledSinceClear h := by
  constructor
  · rintro ⟨a, b, he, hb⟩
    rcases List.eq_nil_or_concat' b with rfl | ⟨b', e', rfl⟩
    · cases (List.append_inj' he rfl).2
      exact absurd rfl h1
    · have he' : h ++ [e] = (a ++ Event.signalled :: b') ++ [e'] := by rw [he]; simp
      exact ⟨a, b', (List.append_inj' he' rfl).1, fun hm => hb (by simp [hm])⟩
  · rintro ⟨a, b, rfl, hb⟩
    exact ⟨a, b ++ [e], by simp, by simp [hb, Ne.symm h2]⟩

/-- Events that neither signal nor clear leave it as it was. -/
theorem signalledSinceClear_append (h es : List Event) (hes : ∀ e ∈ es, e ≠ .signalled ∧ e ≠ .cleared) :
    SignalledSinceClear (h ++ es) ↔ SignalledSinceClear h := by
  induction es generalizing h with
  | nil => simp
  | cons e es ih =>
    have h1 := hes e (by simp)
    rw [List.append_cons, ih _ (fun x hx => hes x (by simp [hx])), signalledSinceClear_other h h1.1 h1.2]

/-- The schedule's next time adds the next interval (R99). -/
theorem programmedTime_succ (cfg : Config) (p : Nat) (k : Nat) :
    programmedTime cfg p (k + 1)
      = reArmAdd cfg (programmedTime cfg p k) (cfg.table.getD (k % cfg.tableLen) 0) := by
  simp only [programmedTime, reArmAdd, intervalSum, List.range_succ, List.map_append, List.sum_append, List.map_cons,
    List.map_nil, List.sum_cons, List.sum_nil, Nat.add_zero, Nat.mod_add_mod, Nat.add_assoc]

@[simp] theorem programmedTime_zero (cfg : Config) (p : Nat) : programmedTime cfg p 0 = p % cfg.period := by
  simp [programmedTime, intervalSum]

/-- The schedule from an armed time is the schedule from its unreduced sum. -/
theorem programmedTime_reArmAdd (cfg : Config) (a v : Nat) (k : Nat) :
    programmedTime cfg (reArmAdd cfg a v) k = programmedTime cfg (a + v) k := by
  simp [programmedTime, reArmAdd, Nat.mod_add_mod]

end Sys2Proof.Machine
end

