-- ==== Sys2Proof/Laws/Ops.lean ====
section
/-! SUPPORT. What the shared operations that look at the state can do: the compare match, the compare write, the
timer tick, the indexer. -/

namespace Sys2Proof.Machine

/-! The width. -/

theorem period_pos (cfg : Config) : 0 < cfg.period := Nat.two_pow_pos _

theorem nextCount_lt (cfg : Config) (t : Nat) : nextCount cfg t < cfg.period := Nat.mod_lt _ (period_pos cfg)

theorem reArmAdd_lt (cfg : Config) (a v : Nat) : reArmAdd cfg a v < cfg.period := Nat.mod_lt _ (period_pos cfg)

/-! The events the platform answers with. -/

/-- The events of `m` matches, from the pin's level `p` (R150, R151; their order is log 20). -/
def matchTrace (toggleEn : Bool) : Nat → Bool → List Event
  | 0, _ => []
  | m + 1, p => .matched :: ((if toggleEn then [.toggled (!p)] else []) ++ matchTrace toggleEn m (p ^^ toggleEn))

@[simp] theorem matchTrace_zero (e p : Bool) : matchTrace e 0 p = [] := rfl
@[simp] theorem cmpWrites_matchTrace (e : Bool) (m : Nat) (p : Bool) : cmpWrites (matchTrace e m p) = [] := by
  induction m generalizing p with
  | zero => rfl
  | succ m ih => cases e <;> simp [matchTrace, ih]
@[simp] theorem faultCodes_matchTrace (e : Bool) (m : Nat) (p : Bool) : faultCodes (matchTrace e m p) = [] := by
  induction m generalizing p with
  | zero => rfl
  | succ m ih => cases e <;> simp [matchTrace, ih]
@[simp] theorem edgeCount_matchTrace (e : Bool) (m : Nat) (p : Bool) : edgeCount (matchTrace e m p) = 0 := by
  induction m generalizing p with
  | zero => rfl
  | succ m ih => cases e <;> simp [matchTrace, ih]
@[simp] theorem matchCount_matchTrace (e : Bool) (m : Nat) (p : Bool) : matchCount (matchTrace e m p) = m := by
  induction m generalizing p with
  | zero => rfl
  | succ m ih => cases e <;> simp [matchTrace, ih]

theorem matchTrace_neutral (e : Bool) (m : Nat) (p : Bool) :
    ∀ x ∈ matchTrace e m p, x ≠ .signalled ∧ x ≠ .cleared := by
  induction m generalizing p with
  | zero => simp
  | succ m ih => cases e <;> simp [matchTrace] <;> exact fun x hx => ih _ x hx

/-- The pin after `m` matches. -/
def pinAfter (e : Bool) (m : Nat) (p : Bool) : Bool := p ^^ (e && decide (m % 2 = 1))

@[simp] theorem pinAfter_zero (e p : Bool) : pinAfter e 0 p = p := by simp [pinAfter]

theorem pinAfter_add (e : Bool) (m n : Nat) (p : Bool) : pinAfter e n (pinAfter e m p) = pinAfter e (m + n) p := by
  unfold pinAfter
  have h : decide ((m + n) % 2 = 1) = (decide (m % 2 = 1) ^^ decide (n % 2 = 1)) := by
    rcases Nat.mod_two_eq_zero_or_one m with hm | hm <;> rcases Nat.mod_two_eq_zero_or_one n with hn | hn <;>
      simp [Nat.add_mod, hm, hn]
  rw [h]
  cases e <;> cases p <;> cases decide (m % 2 = 1) <;> cases decide (n % 2 = 1) <;> rfl

theorem matchTrace_add (e : Bool) (m n : Nat) (p : Bool) :
    matchTrace e (m + n) p = matchTrace e m p ++ matchTrace e n (pinAfter e m p) := by
  induction m generalizing p with
  | zero => simp
  | succ m ih =>
    have h : (p ^^ e) = pinAfter e 1 p := by simp [pinAfter]
    rw [Nat.add_right_comm, matchTrace, matchTrace, ih, h, pinAfter_add, Nat.add_comm 1 m]
    simp

/-- The state after `m` matches: everything they can do. -/
def afterMatches (m : Nat) (s : State) : State :=
  { s with
    mf := s.mf || decide (0 < m), pin := pinAfter s.toggleEn m s.pin
    hist := s.hist ++ matchTrace s.toggleEn m s.pin }

@[simp] theorem afterMatches_zero (s : State) : afterMatches 0 s = s := by simp [afterMatches]

theorem afterMatches_add (m n : Nat) (s : State) : afterMatches n (afterMatches m s) = afterMatches (m + n) s := by
  have h : (decide (0 < m) || decide (0 < n)) = decide (0 < m + n) := by
    rw [Bool.eq_iff_iff]; simp only [Bool.or_eq_true, decide_eq_true_eq]; omega
  simp only [afterMatches, pinAfter_add, matchTrace_add, Bool.or_assoc, h, List.append_assoc]

/-- All that a compare match does (R150, R151). -/
theorem compareMatch_eq (s : State) : compareMatch s = afterMatches 1 s := by
  unfold compareMatch togglePin afterMatches
  by_cases h : s.toggleEn <;> simp [emit, h, matchTrace, pinAfter]

theorem afterMatches_ite (b : Bool) (s : State) :
    (if b = true then compareMatch s else s) = afterMatches b.toNat s := by
  cases b <;> simp [compareMatch_eq]

/-- All that a compare write does (R42, R153). -/
theorem cmpWrite_eq (v : Nat) (s : State) :
    cmpWrite v s
      = afterMatches (matchesOnWrite v s).toNat
          { s with cmp := v, out := { s.out with cmpWr := some v }, hist := s.hist ++ [.cmpWritten v] } := by
  rw [← afterMatches_ite]; rfl

/-- All that a tick does (R150). -/
theorem timerTick_eq (s : State) :
    timerTick s
      = afterMatches (decide (nextCount s.cfg s.tcnt = s.cmp)).toNat { s with tcnt := nextCount s.cfg s.tcnt } := by
  rw [← afterMatches_ite]; simp [timerTick]

/-- All that `n` ticks do. -/
theorem runTicks_eq (n : Nat) (s : State) :
    runTicks n s
      = afterMatches (matchesIn s.cfg s.cmp n s.tcnt) { s with tcnt := countAfter s.cfg n s.tcnt } := by
  induction n generalizing s with
  | zero => simp [runTicks, matchesIn, countAfter]
  | succ n ih =>
    rw [runTicks, ih, timerTick_eq]
    exact afterMatches_add _ _ { s with tcnt := countAfter s.cfg n (nextCount s.cfg s.tcnt) }

/-- The counter when an EDGE writes the compare register. -/
def tcntAtWrite (s : State) : Nat := countAfter s.cfg s.handler.toWrite s.tcnt

/-- The matches inside an EDGE before its compare write, and from it on. -/
def matchesBefore (s : State) : Nat := matchesIn s.cfg s.cmp s.handler.toWrite s.tcnt
def matchesFrom (t : Nat) (s : State) : Nat :=
  (s.cfg.matchOnWrite && tcntAtWrite s == t).toNat + matchesIn s.cfg t s.handler.toSignal (tcntAtWrite s)

theorem matchesDuringEdge_eq (s : State) (t : Nat) :
    matchesDuringEdge s.cfg s.handler s.tcnt s.cmp t = matchesBefore s + matchesFrom t s := rfl

/-- A whole EDGE in one update (R93). -/
theorem edgeSteps_eq (c : Nat) (l v : Nat) (s : State) :
    edgeSteps c l v s =
      { s with
        fsm := .armed
        cursor := some (nextCursor s.cfg c)
        last := some (reArmAdd s.cfg l v)
        pend := true
        tcnt := countAfter s.cfg s.handler.toSignal (tcntAtWrite s)
        mf := decide (0 < matchesDuringEdge s.cfg s.handler s.tcnt s.cmp (reArmAdd s.cfg l v))
        cmp := reArmAdd s.cfg l v
        pin := pinAfter s.toggleEn (matchesDuringEdge s.cfg s.handler s.tcnt s.cmp (reArmAdd s.cfg l v)) s.pin
        out := { s.out with ack := true, cmpWr := some (reArmAdd s.cfg l v) }
        hist := s.hist ++ [.acked] ++ matchTrace s.toggleEn (matchesBefore s) s.pin
          ++ [.cmpWritten (reArmAdd s.cfg l v)]
          ++ matchTrace s.toggleEn (matchesFrom (reArmAdd s.cfg l v) s)
              (pinAfter s.toggleEn (matchesBefore s) s.pin)
          ++ [.signalled] } := by
  have h (a b c : Nat) : (decide (0 < a) || (decide (0 < b) || decide (0 < c))) = decide (0 < a + (b + c)) := by
    rw [Bool.eq_iff_iff]; simp only [Bool.or_eq_true, decide_eq_true_eq]; omega
  simp only [edgeSteps, acknowledge, toFsm, emit, runTicks_eq, cmpWrite_eq, matchesOnWrite, setLast, setCursor,
    signal]
  simp only [afterMatches, pinAfter_add, matchesDuringEdge_eq, matchesFrom, matchesBefore, tcntAtWrite, Bool.false_or,
    matchTrace_add, List.append_assoc, h, Bool.or_assoc, Nat.add_assoc]
  rfl

/-- A whole ARM in one update (R90). -/
theorem armSteps_eq (t : Nat) (s : State) :
    armSteps t s =
      { s with
        fsm := .armed
        cursor := some 0
        last := some t
        mf := s.mf || matchesOnWrite t s
        cmp := t
        pin := s.pin ^^ (matchesOnWrite t s && s.toggleEn)
        out := { s.out with cmpWr := some t }
        hist := s.hist ++ [.cmpWritten t] ++ matchTrace s.toggleEn (matchesOnWrite t s).toNat s.pin } := by
  simp only [armSteps, cmpWrite_eq, toFsm, setLast, setCursor, afterMatches]
  have h : matchesOnWrite t { s with cmp := t, out := { s.out with cmpWr := some t }, hist := s.hist ++ [.cmpWritten t] }
      = matchesOnWrite t s := rfl
  cases matchesOnWrite t s <;> simp [pinAfter]

/-! When a command has a step. -/

theorem stuck?_eq_none {s : State} : stuck? s = none ↔ s.fsm = .unarmed ∨ s.fsm = .armed := by
  unfold stuck?; cases s.fsm <;> simp

theorem stuck?_unarmed {s : State} (h : s.fsm = .unarmed) : stuck? s = none := stuck?_eq_none.2 (.inl h)
theorem stuck?_armed {s : State} (h : s.fsm = .armed) : stuck? s = none := stuck?_eq_none.2 (.inr h)

theorem whenLive_live {s : State} (effect : State → State) (h : s.fsm = .unarmed ∨ s.fsm = .armed) :
    whenLive s effect = .next (effect s) := by
  simp [whenLive, stuck?_eq_none.2 h]

theorem whenLive_next {s t : State} {effect : State → State} (h : whenLive s effect = .next t) :
    (s.fsm = .unarmed ∨ s.fsm = .armed) ∧ t = effect s := by
  unfold whenLive at h
  split at h
  · cases h
  · next hs => cases h; exact ⟨stuck?_eq_none.1 hs, rfl⟩

/-! The indexer. -/

theorem wf_tableLen_pos {cfg : Config} (h : cfg.wf = true) : 1 ≤ cfg.tableLen := by
  simp [Config.wf] at h; omega

theorem wf_table_length {cfg : Config} (h : cfg.wf = true) : cfg.table.length = cfg.tableLen := by
  simp [Config.wf] at h; omega

/-- A table entry of a well-formed configuration is positive and fits the word (R10). -/
theorem wf_entry {cfg : Config} (h : cfg.wf = true) {c : Nat} (hc : c < cfg.tableLen) :
    1 ≤ cfg.table.getD c 0 ∧ cfg.table.getD c 0 < cfg.period := by
  have hl := wf_table_length h
  have hlt : c < cfg.table.length := by omega
  simp only [Config.wf, Bool.and_eq_true, List.all_eq_true] at h
  have := h.2 (cfg.table[c]) (List.getElem_mem hlt)
  simp only [Config.entryOk, Bool.and_eq_true, decide_eq_true_eq] at this
  rw [List.getD_eq_getElem?_getD, List.getElem?_eq_getElem hlt, Option.getD_some]
  have := Nat.two_pow_pos cfg.regWidth
  unfold Config.period
  omega

/-- Within the table `value_at` reads the entry (R80). -/
theorem valueAt_wf {cfg : Config} (h : cfg.wf = true) {c : Nat} (hc : c < cfg.tableLen) :
    valueAt cfg c = some (cfg.table.getD c 0) := by
  have hlt : c < cfg.table.length := by have := wf_table_length h; omega
  simp [valueAt, hc, List.getElem?_eq_getElem hlt]

theorem valueAt_some {cfg : Config} {c : Nat} {v : Nat} (h : valueAt cfg c = some v) :
    c < cfg.tableLen ∧ v = cfg.table.getD c 0 := by
  unfold valueAt at h
  split at h
  · next hc => exact ⟨hc, by simp [List.getD_eq_getElem?_getD, h]⟩
  · cases h

theorem nextCursor_lt {cfg : Config} (h : 1 ≤ cfg.tableLen) (c : Nat) : nextCursor cfg c < cfg.tableLen :=
  Nat.mod_lt _ h

end Sys2Proof.Machine
end

