-- ==== Sys2Proof/Laws/PerInstr.lean ====
section
/-! SUPPORT. Facts about every command as syntax, one lemma per constructor (LAWS.json). -/

namespace Sys2Proof.Laws.WordForm

/-- The form of a command's word (spec/30_encoding.md R60, R62): `RSV` is zero, `OP` is below 6, and `CTX` is 1
exactly for EDGE. -/
def Statement (i : Instr) : Prop :=
  rsvField i.word = 0 ∧ (opField i.word).toNat < 6 ∧ ctxField i.word = decide (i = .edge)

theorem nop : Statement .nop := by unfold Statement; decide
theorem arm (now lead : Nat) : Statement (.arm now lead) := by
  refine ⟨?_, ?_, ?_⟩ <;> simp [Instr.word, rsvField, opField, ctxField]
theorem edge : Statement .edge := by unfold Statement; decide
theorem sigclr : Statement .sigclr := by unfold Statement; decide
theorem sigrd : Statement .sigrd := by unfold Statement; decide
theorem sigrc : Statement .sigrc := by unfold Statement; decide

end Sys2Proof.Laws.WordForm
end

