-- ==== Sys2Proof/Laws/Step.lean ====
section
/-! SUPPORT. What a command and a step can do, said once: every claim about next states goes through `exec_next_iff` and
`step_next`. -/

namespace Sys2Proof.Machine

/-- How a command that has a step can change the state. -/
inductive Effect (s : State) : Instr → State → Prop where
  | nop : Effect s .nop s
  | arm (now lead : Nat) (hf : s.fsm = .unarmed) (hi : s.ie = false) :
      Effect s (.arm now lead) (armSteps (reArmAdd s.cfg now lead) s)
  | armTwice (now lead : Nat) (hf : s.fsm = .armed) : Effect s (.arm now lead) (raiseFault .armTwice 0x01 s)
  | armIrqEnabled (now lead : Nat) (hf : s.fsm = .unarmed) (hi : s.ie = true) :
      Effect s (.arm now lead) (raiseFault .armIrqEnabled 0x01 s)
  | edge (c : Nat) (l v : Nat) (hf : s.fsm = .armed) (hc : s.cursor = some c) (hl : s.last = some l)
      (hv : valueAt s.cfg c = some v) : Effect s .edge (edgeSteps c l v s)
  | edgeUnarmed (h : s.fsm = .unarmed ∨ s.cursor = none ∨ s.last = none) :
      Effect s .edge (raiseFault .edgeUnarmed 0x82 s)
  | sigclr : Effect s .sigclr (clearSignal s)
  | sigrd : Effect s .sigrd (returnBit s.pend s)
  | sigrc : Effect s .sigrc (clearSignal (returnBit s.pend s))

/-- ARM where its checks pass (R90). -/
theorem exec_arm_arms {s : State} (now lead : Nat) (hf : s.fsm = .unarmed) (hi : s.ie = false) :
    exec (.arm now lead) s = .next (armSteps (reArmAdd s.cfg now lead) s) := by
  simp [exec, execArm, stuck?_unarmed hf, hf, State.iePort, hi]

/-- ARM where the scheduler is already armed, whatever `ie_i` (R138). -/
theorem exec_arm_twice {s : State} (now lead : Nat) (hf : s.fsm = .armed) :
    exec (.arm now lead) s = .next (raiseFault .armTwice 0x01 s) := by
  simp [exec, execArm, stuck?_armed hf, hf, Instr.word]

/-- ARM with interrupts enabled (R90). -/
theorem exec_arm_ie {s : State} (now lead : Nat) (hf : s.fsm = .unarmed) (hi : s.ie = true) :
    exec (.arm now lead) s = .next (raiseFault .armIrqEnabled 0x01 s) := by
  simp [exec, execArm, stuck?_unarmed hf, hf, State.iePort, hi, Instr.word]

/-- EDGE where the scheduler is armed and its registers hold values in range (R93). -/
theorem exec_edge_runs {s : State} {c : Nat} {l v : Nat} (hf : s.fsm = .armed) (hc : s.cursor = some c)
    (hl : s.last = some l) (hv : valueAt s.cfg c = some v) : exec .edge s = .next (edgeSteps c l v s) := by
  simp [exec, execEdge, stuck?_armed hf, hf, hc, hl, hv]

/-- EDGE before ARM, or where a register it reads holds no value (R93, R135). -/
theorem exec_edge_unarmed {s : State} (hlive : Live s) (h : s.fsm = .unarmed ∨ s.cursor = none ∨ s.last = none) :
    exec .edge s = .next (raiseFault .edgeUnarmed 0x82 s) := by
  have hs := stuck?_eq_none.2 hlive
  cases hc : s.cursor <;> cases hl : s.last <;> simp_all [exec, execEdge, Instr.word]

theorem exec_nop {s : State} (h : Live s) : exec .nop s = .next s := whenLive_live (fun s => s) h

theorem exec_sigclr {s : State} (h : Live s) : exec .sigclr s = .next (clearSignal s) := whenLive_live clearSignal h

theorem exec_sigrd {s : State} (h : Live s) : exec .sigrd s = .next (returnBit s.pend s) :=
  whenLive_live (fun s => returnBit s.pend s) h

theorem exec_sigrc {s : State} (h : Live s) : exec .sigrc s = .next (clearSignal (returnBit s.pend s)) :=
  whenLive_live (fun s => clearSignal (returnBit s.pend s)) h

/-- Where a command has no step it stops by name (R25, R130). -/
theorem exec_stuck {s : State} {f : Fault} (h : stuck? s = some f) (i : Instr) : exec i s = .fault f := by
  cases i <;> simp [exec, execNop, execArm, execEdge, execSigclr, execSigrd, execSigrc, whenLive, h]

/-- A command that answers a next state had a step. -/
theorem live_of_exec_next {i : Instr} {s t : State} (h : exec i s = .next t) : Live s := by
  cases hs : stuck? s with
  | none => exact stuck?_eq_none.1 hs
  | some f => rw [exec_stuck hs] at h; cases h

/-- What ARM did if it answered a next state. -/
theorem exec_arm_next {now lead : Nat} {s t : State} (h : exec (.arm now lead) s = .next t) :
    Effect s (.arm now lead) t := by
  rcases live_of_exec_next h with hf | hf
  · cases hi : s.ie with
    | true => rw [exec_arm_ie now lead hf hi] at h; cases h; exact .armIrqEnabled now lead hf hi
    | false => rw [exec_arm_arms now lead hf hi] at h; cases h; exact .arm now lead hf hi
  · rw [exec_arm_twice now lead hf] at h; cases h; exact .armTwice now lead hf

/-- What EDGE did if it answered a next state. -/
theorem exec_edge_next {s t : State} (h : exec .edge s = .next t) : Effect s .edge t := by
  have hlive := live_of_exec_next h
  by_cases hu : s.fsm = .unarmed ∨ s.cursor = none ∨ s.last = none
  · rw [exec_edge_unarmed hlive hu] at h; cases h; exact .edgeUnarmed hu
  · push Not at hu
    have hf : s.fsm = .armed := hlive.resolve_left hu.1
    obtain ⟨c, hc⟩ := Option.ne_none_iff_exists'.1 hu.2.1
    obtain ⟨l, hl⟩ := Option.ne_none_iff_exists'.1 hu.2.2
    cases hv : valueAt s.cfg c with
    | none => simp [exec, execEdge, stuck?_armed hf, hf, hc, hl, hv] at h
    | some v => rw [exec_edge_runs hf hc hl hv] at h; cases h; exact .edge c l v hf hc hl hv

/-- Everything a command can do, and when it does it. -/
theorem exec_next_iff {i : Instr} {s t : State} : exec i s = .next t ↔ Live s ∧ Effect s i t := by
  constructor
  · intro h
    have hlive := live_of_exec_next h
    refine ⟨hlive, ?_⟩
    cases i with
    | nop => rw [exec_nop hlive] at h; cases h; exact .nop
    | arm now lead => exact exec_arm_next h
    | edge => exact exec_edge_next h
    | sigclr => rw [exec_sigclr hlive] at h; cases h; exact .sigclr
    | sigrd => rw [exec_sigrd hlive] at h; cases h; exact .sigrd
    | sigrc => rw [exec_sigrc hlive] at h; cases h; exact .sigrc
  · rintro ⟨hlive, he⟩
    cases he with
    | nop => exact exec_nop hlive
    | arm now lead hf hi => exact exec_arm_arms now lead hf hi
    | armTwice now lead hf => exact exec_arm_twice now lead hf
    | armIrqEnabled now lead hf hi => exact exec_arm_ie now lead hf hi
    | edge c l v hf hc hl hv => exact exec_edge_runs hf hc hl hv
    | edgeUnarmed h => exact exec_edge_unarmed hlive h
    | sigclr => exact exec_sigclr hlive
    | sigrd => exact exec_sigrd hlive
    | sigrc => exact exec_sigrc hlive

/-- How one transaction can change the state `s` (the schedule's head already taken). -/
inductive Change (s : State) : Input → State → Prop where
  | idle (p : PortCycle) (hr : p.rst = false) (hv : p.cmdValid = false) : Change s (.cycle p) s
  | reset (p : PortCycle) (hr : p.rst = true) : Change s (.cycle p) (resetBlock s)
  | command (p : PortCycle) (i : Instr) (t : State) (hr : p.rst = false) (hv : p.cmdValid = true)
      (hd : decode s.cfg.regWidth p.command = .command i) (hl : Live s) (he : Effect s i t) :
      Change s (.cycle p) t
  | reject (p : PortCycle) (r : Reject) (hr : p.rst = false) (hv : p.cmdValid = true)
      (hd : decode s.cfg.regWidth p.command = .reject r) (hl : Live s) :
      Change s (.cycle p) (raiseFault (rejectCode r) p.command.cmd s)
  | tick : Change s .tick (timerTick s)
  | dispatch (t : State) (hen : dispatchEnabled s = true) (hl : Live s)
      (he : Effect s .edge t) : Change s .dispatch t
  | noDispatch (hen : dispatchEnabled s = false) : Change s .dispatch s
  | setIe (on : Bool) : Change s (.setIe on) { s with ie := on }
  | enableToggle : Change s .enableToggle { s with toggleEn := true }
  | installHandler : Change s .installHandler { s with srcEn := true }
  | ackMatchFlag : Change s .ackMatchFlag { s with mf := false }
  | readCounter : Change s .readCounter { s with counterRead := some s.tcnt }
  | handler (h : HandlerTicks) : Change s (.handler h) { s with handler := h }

theorem runCommand_next {c : Command} {s t : State} (h : runCommand c s = .next t) :
    Live s
      ∧ ((∃ i, decode s.cfg.regWidth c = .command i ∧ Effect s i t)
        ∨ ∃ r, decode s.cfg.regWidth c = .reject r ∧ t = raiseFault (rejectCode r) c.cmd s) := by
  unfold runCommand at h
  split at h
  · next i hd => have := exec_next_iff.1 h; exact ⟨this.1, .inl ⟨i, hd, this.2⟩⟩
  · next r hd => have := whenLive_next h; exact ⟨this.1, .inr ⟨r, hd, this.2⟩⟩

/-- The word the dispatch issues is EDGE's (R140). -/
theorem runCommand_edge (s : State) : runCommand (encode .edge) s = exec .edge s := rfl

/-- Everything one transaction can do. -/
theorem runInput_next {x : Input} {s t : State} (h : runInput x s = .next t) : Change s x t := by
  cases x with
  | cycle p =>
    simp only [runInput, runCycle] at h
    cases hr : p.rst with
    | true => simp [hr] at h; cases h; exact .reset p hr
    | false =>
      cases hv : p.cmdValid with
      | false => simp [hr, hv] at h; cases h; exact .idle p hr hv
      | true =>
        simp only [hr, hv] at h
        obtain ⟨hl, ⟨i, hd, he⟩ | ⟨r, hd, rfl⟩⟩ := runCommand_next h
        · exact .command p i t hr hv hd hl he
        · exact .reject p r hr hv hd hl
  | tick => cases h; exact .tick
  | dispatch =>
    simp only [runInput, runDispatch] at h
    cases hen : dispatchEnabled s with
    | false => simp [hen] at h; cases h; exact .noDispatch hen
    | true =>
      simp only [hen] at h
      obtain ⟨hl, he⟩ := exec_next_iff.1 (show exec .edge s = .next t by simpa [runCommand_edge] using h)
      exact .dispatch t hen hl he
  | setIe on => cases h; exact .setIe on
  | enableToggle => cases h; exact .enableToggle
  | installHandler => cases h; exact .installHandler
  | ackMatchFlag => cases h; exact .ackMatchFlag
  | readCounter => cases h; exact .readCounter
  | handler d => cases h; exact .handler d

/-- Everything a step can do: nothing scheduled, or the schedule's head. -/
theorem step_next {s t : State} (h : step s = .next t) :
    s.cfg.wf = true ∧ ((s.inputs = [] ∧ t = beginCycle [] s)
      ∨ ∃ x rest, s.inputs = x :: rest ∧ Change (beginCycle rest s) x t) := by
  unfold step at h
  split at h
  · next hw =>
    refine ⟨hw, ?_⟩
    unfold runNext at h
    split at h
    · next hi => cases h; exact .inl ⟨hi, rfl⟩
    · next x rest hi => exact .inr ⟨x, rest, hi, runInput_next h⟩
  · cases h

/-- A step on a well-formed configuration runs the schedule's head. -/
theorem step_cons {s : State} {x : Input} {rest : List Input} (hw : s.cfg.wf = true) (hi : s.inputs = x :: rest) :
    step s = runInput x (beginCycle rest s) := by
  simp [step, hw, runNext, hi]

/-- A command presented alone is a step of that command. -/
theorem step_present {s : State} {c : Command} {i : Instr} {rest : List Input} (hw : s.cfg.wf = true)
    (hi : s.inputs = present c :: rest) (hd : decode s.cfg.regWidth c = .command i) : step s = exec i (beginCycle rest s) := by
  rw [step_cons hw hi]
  simp [present, runInput, runCycle, runCommand, hd]

/-- A command presented on the ports runs as itself. -/
theorem runInput_present {c : Command} {i : Instr} (s : State) (hd : decode s.cfg.regWidth c = .command i) :
    runInput (present c) s = exec i s := by
  simp [present, runInput, runCycle, runCommand, hd]

/-- An enabled dispatch runs EDGE (R140). -/
theorem runInput_dispatch {s : State} (h : dispatchEnabled s = true) : runInput .dispatch s = exec .edge s := by
  simp [runInput, runDispatch, h, runCommand_edge]

/-- A run of one more step. -/
theorem run_succ_next {s t : State} (k : Nat) (h : step s = .next t) :
    core.run (k + 1) s = core.run k t := by
  simp [Host.Core.run, core, h]

/-- A run whose first act is `x`. -/
theorem run_cons {s u : State} {x : Input} {rest : List Input} (k : Nat) (hw : s.cfg.wf = true)
    (hi : s.inputs = x :: rest) (h : runInput x (beginCycle rest s) = .next u) :
    core.run (k + 1) s = core.run k u :=
  run_succ_next k ((step_cons hw hi).trans h)

/-- A run in two parts. -/
theorem run_add {a : Nat} (b : Nat) {s t : State} (h : core.run a s = .next t) : core.run (a + b) s = core.run b t := by
  induction a generalizing s with
  | zero => simp only [Host.Core.run] at h; cases h; simp
  | succ a ih =>
    rw [Nat.add_right_comm]
    cases hs : step s with
    | next u => rw [run_succ_next a hs] at h; rw [run_succ_next _ hs]; exact ih h
    | fault r => simp [Host.Core.run, core, hs] at h
    | refused r => simp [Host.Core.run, core, hs] at h

/-- The first step of a run that answers a next state. -/
theorem run_succ_inv {k : Nat} {s t : State} (h : core.run (k + 1) s = .next t) :
    ∃ u, step s = .next u ∧ core.run k u = .next t := by
  cases hs : step s with
  | next u => exact ⟨u, rfl, by rw [← run_succ_next k hs]; exact h⟩
  | fault r => simp [Host.Core.run, core, hs] at h
  | refused r => simp [Host.Core.run, core, hs] at h

end Sys2Proof.Machine
end

