-- ==== Sys2Proof/Laws/Timer.lean ====
section
/-! SUPPORT. The arithmetic of the free-running counter (spec/60_exceptions.md R150, R153 to R155), for every width: the
period stands as one number that the linear decision procedures treat as an unknown. -/

namespace Sys2Proof.Machine

variable {cfg : Config}

theorem two_pow_regWidth (cfg : Config) : 2 ^ cfg.regWidth = cfg.period := rfl

/-- The counter's next value without a remainder. -/
theorem nextCount_cases {t : Nat} (h : t < cfg.period) :
    nextCount cfg t = if t + 1 = cfg.period then 0 else t + 1 := by
  unfold nextCount
  split
  · next he => rw [he, Nat.mod_self]
  · exact Nat.mod_eq_of_lt (by omega)

/-- The adder without a remainder. -/
theorem reArmAdd_cases {a v : Nat} (ha : a < cfg.period) (hv : v < cfg.period) :
    reArmAdd cfg a v = if a + v < cfg.period then a + v else a + v - cfg.period := by
  unfold reArmAdd
  split
  · next h => exact Nat.mod_eq_of_lt h
  · rw [Nat.mod_eq_sub_mod (by omega)]; exact Nat.mod_eq_of_lt (by omega)

/-- `n` ticks add `n` modulo `2^W`. -/
theorem countAfter_eq (n : Nat) {t : Nat} (h : t < cfg.period) : countAfter cfg n t = (t + n) % cfg.period := by
  induction n generalizing t with
  | zero => simp [countAfter, Nat.mod_eq_of_lt h]
  | succ n ih => rw [countAfter, ih (nextCount_lt _ _), nextCount, Nat.mod_add_mod]; congr 1; omega

theorem countAfter_lt (n : Nat) {t : Nat} (h : t < cfg.period) : countAfter cfg n t < cfg.period := by
  rw [countAfter_eq n h]; exact Nat.mod_lt _ (period_pos cfg)

theorem ticksToMatch_range {t m : Nat} (ht : t < cfg.period) (hm : m < cfg.period) :
    1 ≤ ticksToMatch cfg t m ∧ ticksToMatch cfg t m ≤ cfg.period := by
  unfold ticksToMatch; split <;> omega

/-- One tick: the match, after which a whole period remains, or one tick fewer to go. -/
theorem ticksToMatch_tick {t m : Nat} (ht : t < cfg.period) (hm : m < cfg.period) :
    if nextCount cfg t = m then ticksToMatch cfg t m = 1 ∧ ticksToMatch cfg (nextCount cfg t) m = cfg.period
    else ticksToMatch cfg (nextCount cfg t) m + 1 = ticksToMatch cfg t m := by
  rw [nextCount_cases ht]
  unfold ticksToMatch
  split_ifs <;> omega

/-- The number of matches in `n` ticks: the first after `ticksToMatch` of them, then one every period (R150). -/
theorem matchesIn_eq (n : Nat) {t m : Nat} (ht : t < cfg.period) (hm : m < cfg.period) :
    matchesIn cfg m n t = (n + cfg.period - ticksToMatch cfg t m) / cfg.period := by
  have hp := period_pos cfg
  induction n generalizing t with
  | zero =>
    have := ticksToMatch_range ht hm
    rw [matchesIn, Nat.div_eq_of_lt (by omega)]
  | succ n ih =>
    have hr := ticksToMatch_range (nextCount_lt cfg t) hm
    have h := ticksToMatch_tick ht hm
    rw [matchesIn, ih (nextCount_lt _ _)]
    split at h
    · next he =>
      rw [h.1, h.2, decide_eq_true he, Bool.toNat_true, Nat.add_sub_cancel, Nat.add_right_comm, Nat.add_sub_cancel,
        Nat.add_div_right _ hp, Nat.add_comm]
    · next he =>
      rw [decide_eq_false he, Bool.toNat_false, Nat.zero_add]
      congr 1
      omega

/-- Fewer ticks than one period after the first match: none or one. -/
theorem matchesIn_short {n : Nat} {t m : Nat} (ht : t < cfg.period) (hm : m < cfg.period)
    (hn : n < ticksToMatch cfg t m + cfg.period) :
    matchesIn cfg m n t = if n < ticksToMatch cfg t m then 0 else 1 := by
  have hr := ticksToMatch_range ht hm
  rw [matchesIn_eq n ht hm]
  split
  · exact Nat.div_eq_of_lt (by omega)
  · rw [Nat.div_eq_iff (by omega)]; omega

/-- Ticks in two parts. -/
theorem countAfter_add (a b : Nat) (t : Nat) : countAfter cfg (a + b) t = countAfter cfg b (countAfter cfg a t) := by
  induction a generalizing t with
  | zero => simp [countAfter]
  | succ a ih => rw [Nat.add_right_comm, countAfter, ih, countAfter]

/-- Matches in two parts. -/
theorem matchesIn_add (m : Nat) (a b : Nat) (t : Nat) :
    matchesIn cfg m (a + b) t = matchesIn cfg m a t + matchesIn cfg m b (countAfter cfg a t) := by
  induction a generalizing t with
  | zero => simp [matchesIn, countAfter]
  | succ a ih => rw [Nat.add_right_comm, matchesIn, ih, matchesIn, countAfter, Nat.add_assoc]

/-- How far a compare value `P + T` is from a counter value `P + L`: what R154 calls `δ`, except on the write tick. -/
theorem ticksToMatch_offsets {P T L : Nat} (hP : P < cfg.period) (hT : T < cfg.period) (hL : L < cfg.period) :
    ticksToMatch cfg (reArmAdd cfg P L) (reArmAdd cfg P T)
      = if T = L then cfg.period else if L < T then T - L else T + cfg.period - L := by
  rw [reArmAdd_cases hP hL, reArmAdd_cases hP hT]
  unfold ticksToMatch
  split_ifs <;> omega

/-- Offsets below one period are told apart. -/
theorem offset_inj {P T L : Nat} (hP : P < cfg.period) (hT : T < cfg.period) (hL : L < cfg.period) :
    reArmAdd cfg P L = reArmAdd cfg P T ↔ T = L := by
  rw [reArmAdd_cases hP hL, reArmAdd_cases hP hT]
  split_ifs <;> omega

/-- The three cases of R154: nominal, stretched by one full period, and on the write tick. -/
theorem writeToMatch_cases (cfg : Config) {T L : Nat} (hL : L < cfg.period) :
    (L < T → L + writeToMatch cfg T L = T) ∧ (T < L → L + writeToMatch cfg T L = cfg.period + T)
      ∧ (T = L → writeToMatch cfg T L = if cfg.matchOnWrite then 0 else cfg.period) := by
  unfold writeToMatch
  refine ⟨fun h => ?_, fun h => ?_, fun h => by rw [if_pos h]⟩ <;> split_ifs <;> omega

/-- The matches a compare write leads to, from the write on: the immediate one, and those of the `d` ticks after it
(R153, R154). -/
theorem matches_from_write {P T L d : Nat} (hP : P < cfg.period) (hT : T < cfg.period) (hL : L < cfg.period)
    (hd : d < writeToMatch cfg T L + cfg.period) :
    (cfg.matchOnWrite && reArmAdd cfg P L == reArmAdd cfg P T).toNat
        + matchesIn cfg (reArmAdd cfg P T) d (reArmAdd cfg P L)
      = if d < writeToMatch cfg T L then 0 else 1 := by
  have ho := ticksToMatch_offsets hP hT hL
  have hl := reArmAdd_lt cfg P L
  have ht := reArmAdd_lt cfg P T
  have he : (reArmAdd cfg P L == reArmAdd cfg P T) = decide (T = L) := by
    rw [Bool.eq_iff_iff, beq_iff_eq, decide_eq_true_eq]; exact offset_inj hP hT hL
  rw [he]
  unfold writeToMatch at hd ⊢
  by_cases h : T = L
  · rw [if_pos h] at ho hd ⊢
    cases hm : cfg.matchOnWrite <;> simp only [hm] at hd ⊢
    · rw [matchesIn_short hl ht (by rw [ho]; simpa using hd), ho]; simp [h]
    · rw [matchesIn_short hl ht (by rw [ho]; simp at hd; omega), ho, if_pos (by simpa using hd)]; simp [h]
  · rw [if_neg h] at ho hd ⊢
    rw [matchesIn_short hl ht (by rw [ho]; exact hd), ho]; simp [h]

/-- The counter meets the compare value exactly `δ` ticks after the write. -/
theorem counter_meets {P T L d : Nat} (hL : L < cfg.period)
    (hd : d = writeToMatch cfg T L) : countAfter cfg d (reArmAdd cfg P L) = reArmAdd cfg P T := by
  have hw := writeToMatch_cases cfg (T := T) hL
  rw [countAfter_eq d (reArmAdd_lt _ _ _), reArmAdd, reArmAdd, Nat.mod_add_mod]
  rcases Nat.lt_trichotomy L T with h | h | h
  · have := hw.1 h; congr 1; omega
  · have := hw.2.2 h.symm
    subst h
    rw [hd, this]; split
    · simp
    · rw [Nat.add_mod_right]
  · have := hw.2.1 h
    rw [show P + L + d = P + T + cfg.period by omega, Nat.add_mod_right]

/-- A run over `n` ticks: `runTicks`, the schedule moved past them. -/
theorem run_ticks (n : Nat) {s : State} {rest : List Input} (hw : s.cfg.wf = true)
    (hi : s.inputs = List.replicate n .tick ++ rest) :
    core.run n s = .next { runTicks n s with inputs := rest, out := if n = 0 then s.out else Outputs.idle } := by
  induction n generalizing s with
  | zero => simp only [List.replicate_zero, List.nil_append] at hi; simp [Host.Core.run, runTicks, ← hi]
  | succ n ih =>
    rw [List.replicate_succ] at hi
    rw [run_cons n hw hi rfl, ih (by rw [timerTick_eq]; exact hw) (by rw [timerTick_eq]; rfl)]
    simp only [runTicks, runTicks_eq, timerTick_eq, afterMatches, beginCycle]
    simp

end Sys2Proof.Machine
end

