-- ==== Sys2Proof/Tests/Slice0.lean ====
section
/-! SUPPORT. Tests: what the well-formedness check refuses, the words of spec/30_encoding.md, the vectors of
spec/95_test_vectors.md (named V-… as there), and for every obligation with hypotheses a witness that meets them. -/

namespace Sys2Proof.Tests

open Sys2Proof.Machine

/-- This hardware's configuration with the two open parameters filled in for a test. -/
def cfgOf (mow : Bool) : Config := { Config.hardware with matchOnWrite := mow, byteOrder := .bigEndian }

/-- A configuration with another table. -/
def cfgTable (table : List Nat) : Config := { cfgOf false with tableLen := table.length, table := table }

/-- A state with the given configuration, schedule and scheduler registers. -/
def st (cfg : Config) (f : Fsm) (c l : Option Nat) (pend : Bool) (xs : List Input) : State :=
  { State.launch cfg Launch.family with fsm := f, cursor := c, last := l, cmp := l.getD 0, pend := pend, inputs := xs }

/-- Before ARM. -/
def unarmed : State := st (cfgOf false) .unarmed none none false []

/-- After ARM: the cursor `c`, the programmed time `l`. -/
def armed (c : Nat) (l : Nat) (pend : Bool) : State := st (cfgOf false) .armed (some c) (some l) pend []

/-- After a fault. -/
def faulted : State := { st (cfgOf false) .faulted (some 0) (some 300) false [] with fault := .armTwice }

def nextOf : Host.Outcome State Fault Refusal → Option State
  | .next t => some t
  | .fault _ => none
  | .refused _ => none

def faultOf : Host.Outcome State Fault Refusal → Option Fault
  | .next _ => none
  | .fault f => some f
  | .refused _ => none

def refusalOf : Host.Outcome State Fault Refusal → Option Refusal
  | .next _ => none
  | .fault _ => none
  | .refused r => some r

/-- `{FSM, CURSOR, LAST, PEND, FAULT}` and `CMP`, as the vectors write a state. -/
structure Regs where
  fsm : Fsm
  cursor : Option Nat
  last : Option Nat
  pend : Bool
  fault : FaultCode
  cmp : Nat
deriving DecidableEq, Repr

def regsOf (o : Host.Outcome State Fault Refusal) : Option Regs :=
  (nextOf o).map fun t => ⟨t.fsm, t.cursor, t.last, t.pend, t.fault, t.cmp⟩

def histOf (o : Host.Outcome State Fault Refusal) : Option (List Event) := (nextOf o).map State.hist

/-! Well-formedness (spec/00_scope.md R10): an ill-formed term for each check. -/

theorem test_wf_hardware : Config.hardware.wf = true ∧ Config.hardware.regWidth = 16 := by decide
theorem test_wf_largest_entry : (cfgTable [65535, 1]).wf = true := by decide
theorem test_wf_refuses_empty_table : (cfgTable []).wf = false := by decide
theorem test_wf_refuses_wrong_length : Config.wf { cfgTable [5, 7] with tableLen := 3 } = false := by decide
theorem test_wf_refuses_zero_entry : (cfgTable [5, 0]).wf = false := by decide
theorem test_wf_refuses_wide_entry : (cfgTable [65536]).wf = false := by decide
theorem test_step_refuses_ill_formed :
    refusalOf (step (st (cfgTable [0]) .unarmed none none false [])) = some .illFormedConfig := by decide
theorem test_wf_refuses_no_width : Config.wf { cfgOf false with regWidth := 0 } = false := by decide
theorem test_wf_refuses_wide_operand :
    (Instr.arm 65535 65535).wf 16 = true ∧ (Instr.arm 65536 0).wf 16 = false ∧ (Instr.arm 0 65536).wf 16 = false := by
  decide
theorem test_launch_refuses_wide_counter :
    Launch.family.wf (cfgOf false) = true ∧ Launch.wf (cfgOf false) { Launch.family with tcnt := 65536 } = false
    ∧ Launch.wf (cfgOf false) { Launch.family with cmp := 65536 } = false := by decide
theorem test_operand_range : operandOk 16 65535 = true ∧ operandOk 16 65536 = false := by decide

/-! Decoding: every constructor from its word (R62), and the rejected words of V-D3 to V-D5. -/

theorem test_decode_nop : decode 16 ⟨0b0_000_0000, 1, 2⟩ = .command .nop := by decide
theorem test_decode_arm :
    decode 16 ⟨0b0_000_0001, 0xFDE8, 0x012C⟩ = .command (.arm 65000 300)
    ∧ decode 8 ⟨0b0_000_0001, 0x1FF, 0x100⟩ = .command (.arm 0xFF 0) := by decide
theorem test_decode_edge : decode 16 ⟨0b1_000_0010, 1, 2⟩ = .command .edge := by decide
theorem test_decode_sigclr : decode 16 ⟨0b0_000_0011, 1, 2⟩ = .command .sigclr := by decide
theorem test_decode_sigrd : decode 16 ⟨0b0_000_0100, 1, 2⟩ = .command .sigrd := by decide
theorem test_decode_sigrc : decode 16 ⟨0b0_000_0101, 1, 2⟩ = .command .sigrc := by decide
theorem test_decode_context :
    ([0x02, 0x80, 0x84].map fun w => decode 16 ⟨w, 0, 0⟩) = List.replicate 3 (.reject .context) := by decide
theorem test_decode_reserved_op :
    ([0x06, 0x0F, 0x86, 0x8F].map fun w => decode 16 ⟨w, 0, 0⟩) = List.replicate 4 (.reject .reservedCmd) := by decide
theorem test_decode_reserved_rsv :
    ([0x10, 0x11, 0x7F, 0x92, 0xFF].map fun w => decode 16 ⟨w, 0, 0⟩) = List.replicate 5 (.reject .reservedCmd) := by
  decide
theorem test_table_word_edge : decodeTableWord 8 0x82 = some .edge := by decide
theorem test_table_word_reserved : decodeTableWord 8 0x0B = none := by decide
theorem test_first_step_after_reset :
    (nextOf (step (State.reset.withFetchWord 8 0x03))).map State.hist = some [.cleared] := by decide

/-! The indexer and the adder (V-I1 to V-I8, V-A1 to V-A6). -/

theorem test_value_at : [0, 5, 6, 11, 12].map (valueAt Config.hardware)
    = [some 1000, some 10000, some 200, some 200, none] := by decide
theorem test_next_cursor : [3, 11].map (nextCursor Config.hardware) = [4, 0] := by decide
theorem test_next_cursor_iterated :
    (nextCursor Config.hardware)^[12] 7 = 7 ∧ (nextCursor Config.hardware)^[5] 9 = 2 := by decide
theorem test_one_entry_table : nextCursor (cfgTable [500]) 0 = 0 ∧ valueAt (cfgTable [500]) 0 = some 500 := by decide
theorem test_cursor_width :
    cursorWidth (cfgTable [500]) = 1 ∧ cursorWidth (cfgTable [1, 2, 3, 4]) = 2 ∧ cursorWidth Config.hardware = 4 := by
  decide
theorem test_adder :
    [(300, 1000), (64500, 2000), (65535, 1), (65535, 65535), (0, 0), (65000, 1000)].map
      (fun p : Nat × Nat => reArmAdd (cfgOf false) p.1 p.2) = [1300, 964, 0, 65534, 0, 464] := by decide

/-! A rejected word faults before any effect (V-R9, V-E8, V-G9). -/

theorem test_rejected_word_faults :
    histOf (runCommand ⟨0x81, 0, 300⟩ unarmed) = some [.faulted .context 0x81]
    ∧ regsOf (runCommand ⟨0x02, 0, 0⟩ (armed 0 300 false)) = some ⟨.faulted, some 0, some 300, false, .context, 300⟩
    ∧ regsOf (runCommand ⟨0x83, 0, 0⟩ (armed 0 300 true)) = some ⟨.faulted, some 0, some 300, true, .context, 300⟩ := by
  decide

/-! ARM (V-R3, V-R5; V-R6, V-R8). -/

theorem test_arm_wraps :
    regsOf (exec (.arm 65000 1000) unarmed) = some ⟨.armed, some 0, some 464, false, .noFault, 464⟩
    ∧ regsOf (exec (.arm 0 300) (st (cfgOf false) .unarmed none none true []))
      = some ⟨.armed, some 0, some 300, true, .noFault, 300⟩ := by decide
theorem test_arm_faults :
    regsOf (exec (.arm 0 300) { unarmed with ie := true }) = some ⟨.faulted, none, none, false, .armIrqEnabled, 0⟩
    ∧ regsOf (exec (.arm 100 50) { armed 0 300 false with ie := true })
      = some ⟨.faulted, some 0, some 300, false, .armTwice, 300⟩ := by decide

/-- A block 8 bits wide: the adder and the counter wrap at 256 (R9). -/
def narrow : State := st { cfgTable [200] with regWidth := 8 } .armed (some 0) (some 100) false []

/-! EDGE (V-E1, V-E7; V-E2, V-E3, V-E9). -/

theorem test_edge_events :
    histOf (exec .edge { armed 0 300 false with mf := true }) = some [.acked, .cmpWritten 1300, .signalled]
    ∧ histOf (exec .edge unarmed) = some [.faulted .edgeUnarmed 0x82] := by decide
theorem test_edge_wraps :
    regsOf (exec .edge (armed 3 64500 false)) = some ⟨.armed, some 4, some 964, true, .noFault, 964⟩
    ∧ regsOf (exec .edge (armed 11 30700 false)) = some ⟨.armed, some 0, some 30900, true, .noFault, 30900⟩
    ∧ regsOf (exec .edge (st (cfgTable [500]) .armed (some 0) (some 65300) false []))
      = some ⟨.armed, some 0, some 264, true, .noFault, 264⟩
    ∧ regsOf (exec .edge narrow) = some ⟨.armed, some 0, some 44, true, .noFault, 44⟩ := by decide

/-! The signal commands and NOP (V-G1 to V-G8). -/

theorem test_sigclr : regsOf (exec .sigclr (armed 0 300 true)) = some ⟨.armed, some 0, some 300, false, .noFault, 300⟩
    ∧ histOf (exec .sigclr (armed 0 300 false)) = some [.cleared] := by decide
theorem test_sigrd_one : (nextOf (exec .sigrd (armed 0 300 true))).map (fun t => (t.out.rdata, t.pend, t.hist))
    = some (some true, true, [.read true]) := by decide
theorem test_sigrd_unarmed : (nextOf (exec .sigrd unarmed)).map (fun t => (t.out.rdata, t.hist))
    = some (some false, [.read false]) := by decide
theorem test_sigrc_one : (nextOf (exec .sigrc (armed 0 300 true))).map (fun t => (t.out.rdata, t.pend, t.hist))
    = some (some true, false, [.read true, .cleared]) := by decide
theorem test_sigrc_zero : (nextOf (exec .sigrc unarmed)).map (fun t => (t.out.rdata, t.pend, t.hist))
    = some (some false, false, [.read false, .cleared]) := by decide
theorem test_nop : nextOf (exec .nop (armed 0 300 true)) = some (armed 0 300 true) := by decide

/-! The platform and the transactions (R140, R150, R151, R153, R170; the dispatch and the stop of P1, P4). -/

theorem test_tick_wraps_and_matches :
    (nextOf (step { armed 0 0 false with tcnt := 65535, toggleEn := true, inputs := [.tick] })).map
      (fun t => (t.tcnt, t.mf, t.pin, t.hist)) = some (0, true, true, [.matched, .toggled true]) := by decide
theorem test_dispatch :
    regsOf (step { armed 0 300 false with mf := true, ie := true, srcEn := true, inputs := [.dispatch] })
      = some ⟨.armed, some 1, some 1300, true, .noFault, 1300⟩ := by decide
theorem test_dispatch_masked :
    regsOf (step { armed 0 300 false with mf := true, srcEn := true, inputs := [.dispatch] })
      = some ⟨.armed, some 0, some 300, false, .noFault, 300⟩ := by decide
theorem test_match_on_write :
    (nextOf (exec (.arm 7 0) { st (cfgOf true) .unarmed none none false [] with tcnt := 7 })).map
      (fun t => (t.mf, t.hist)) = some (true, [.cmpWritten 7, .matched])
    ∧ (nextOf (exec (.arm 7 0) { unarmed with tcnt := 7 })).map (fun t => (t.mf, t.hist))
      = some (false, [.cmpWritten 7]) := by decide
theorem test_reset_wins :
    regsOf (step { faulted with inputs := [.cycle ⟨true, true, ⟨0x04, 0, 0⟩⟩] })
      = some ⟨.unarmed, none, none, false, .noFault, 300⟩ := by decide
theorem test_stuck_in_faulted : faultOf (step { faulted with inputs := [present ⟨0x04, 0, 0⟩] })
    = some .stuckInFaulted := by decide
theorem test_match_inside_edge :
    (nextOf (exec .edge { armed 0 300 false with tcnt := 298, handler := ⟨2, 0⟩ })).map
      (fun t => (t.tcnt, t.mf, t.hist)) = some (300, true, [.acked, .matched, .cmpWritten 1300, .signalled])
    ∧ (nextOf (exec .edge { st (cfgTable [5]) .armed (some 0) (some 300) false [] with
        tcnt := 300, handler := ⟨3, 2⟩, toggleEn := true })).map (fun t => (t.tcnt, t.mf, t.pin, t.hist))
      = some (305, true, true, [.acked, .cmpWritten 305, .matched, .toggled true, .signalled]) := by decide
theorem test_tick_narrow : (nextOf (step { narrow with tcnt := 255, inputs := [.tick] })).map State.tcnt = some 0 := by
  decide
/-- The codes of R131 on the port, by the events that raise them. -/
theorem test_fault_port :
    [runCommand ⟨0x06, 0, 0⟩ unarmed, runCommand ⟨0x02, 0, 0⟩ unarmed, exec (.arm 0 0) (armed 0 300 false),
      exec (.arm 0 0) { unarmed with ie := true }, exec .edge unarmed].map (fun o => (nextOf o).map State.faultPort)
      = [some 0b001, some 0b010, some 0b011, some 0b100, some 0b101] ∧ unarmed.faultPort = 0b000 := by decide

/-! The assembler (R70, R71). -/

theorem test_line_arm : readLine 16 "ARM 65000, 0x012C ; lead".toList = .line (.arm 65000 300) := by decide
theorem test_line_operand_refused : readLine 16 "ARM 0, 65536".toList = .refused := by decide
theorem test_line_pseudo : readLine 16 "CONSUME".toList = .line .consume := by decide
theorem test_line_comment : readLine 16 "  ; nothing".toList = .empty := by decide
theorem test_line_lower_case_refused : readLine 16 "nop".toList = .refused := by decide

/-! Witnesses: for every obligation with hypotheses, a state and operands that meet them together. -/

/-- A state whose schedule is `xs`. -/
def with_ (s : State) (xs : List Input) : State := { s with inputs := xs }

/-- The dispatch's three enables set. -/
def enabled (s : State) : State := { s with ie := true, srcEn := true, mf := true }

theorem witness_ResetTransaction :
    (with_ faulted [.cycle ⟨true, true, ⟨0x82, 0, 0⟩⟩]).cfg.wf = true
    ∧ (with_ faulted [.cycle ⟨true, true, ⟨0x82, 0, 0⟩⟩]).inputs = .cycle ⟨true, true, ⟨0x82, 0, 0⟩⟩ :: []
    ∧ (⟨true, true, ⟨0x82, 0, 0⟩⟩ : PortCycle).rst = true := by decide
theorem witness_IllFormedConfigurationHasNoRun : (st (cfgTable [65536]) .unarmed none none false []).cfg.wf = false := by
  decide
theorem witness_CursorWidthIsSmallest :
    (1 ≤ (cfgTable [500]).tableLen ∧ 1 ≤ 1 ∧ (cfgTable [500]).tableLen ≤ 2 ^ 1)
    ∧ (1 ≤ (cfgTable [1, 2, 3, 4]).tableLen ∧ 1 ≤ 2 ∧ (cfgTable [1, 2, 3, 4]).tableLen ≤ 2 ^ 2) := by decide
theorem witness_DecodeVerdicts :
    (Live unarmed ∧ decode 16 ⟨0x06, 0, 0⟩ = .reject .reservedCmd)
    ∧ (Live (armed 11 0 true) ∧ decode 16 ⟨0x85, 0, 0⟩ = .reject .context)
    ∧ decode 16 ⟨0x05, 0, 0⟩ = .command .sigrc := by decide
theorem witness_DecodeEncodeAgree : (Instr.arm 65535 0).wf 16 = true ∧ (Instr.arm 1 0).wf 1 = true := by decide
theorem witness_LaunchMeetsInvariants : Launch.wf (cfgOf true) ⟨65535, 0, true, true, true, true, true⟩ = true := by decide
theorem witness_NopRule : (⟨0x80, 1, 2⟩ : Command).cmd = 0x80 ∧ Live unarmed ∧ Live (armed 11 65535 true) := by decide
theorem witness_ArmRule :
    ((⟨0x01, 0, 65535⟩ : Command).cmd = 0x01 ∧ (⟨0x81, 0, 0⟩ : Command).cmd = 0x81)
    ∧ (unarmed.fsm = .unarmed ∧ unarmed.ie = false
      ∧ 65534 = (65535 + 65535) % 2 ^ unarmed.cfg.regWidth
      ∧ (unarmed.cfg.matchOnWrite = false ∨ unarmed.tcnt ≠ 65534))
    ∧ (armed 0 300 false).fsm = .armed
    ∧ ({ unarmed with ie := true } : State).fsm = .unarmed ∧ ({ unarmed with ie := true } : State).ie = true := by
  decide
theorem witness_EdgeRule :
    ((⟨0x82, 1, 2⟩ : Command).cmd = 0x82 ∧ (⟨0x02, 0, 0⟩ : Command).cmd = 0x02)
    ∧ ((armed 11 65535 true).cfg.wf = true ∧ (armed 11 65535 true).fsm = .armed
      ∧ (armed 11 65535 true).cursor = some 11 ∧ 11 < (armed 11 65535 true).cfg.tableLen
      ∧ (armed 11 65535 true).last = some 65535
      ∧ 199 = (65535 + (armed 11 65535 true).cfg.table.getD 11 0) % 2 ^ (armed 11 65535 true).cfg.regWidth
      ∧ matchesDuringEdge (armed 11 65535 true).cfg (armed 11 65535 true).handler (armed 11 65535 true).tcnt
        (armed 11 65535 true).cmp 199 = 0)
    ∧ unarmed.fsm = .unarmed := by decide

/-- A state whose counter an EDGE's compare write meets at once. -/
def meetsArmed : State :=
  { st (cfgOf true) .armed (some 11) (some 65535) false [] with tcnt := 199, toggleEn := true }

/-- A state whose counter ARM's compare write with `lead = 0` meets at once. -/
def meetsUnarmed : State := { st (cfgOf true) .unarmed none none false [] with tcnt := 7 }

theorem witness_MatchOnWrite :
    (meetsUnarmed.fsm = .unarmed ∧ meetsUnarmed.ie = false ∧ meetsUnarmed.cfg.matchOnWrite = true
      ∧ meetsUnarmed.tcnt = (7 + 0) % meetsUnarmed.cfg.period)
    ∧ (meetsArmed.fsm = .armed ∧ meetsArmed.cursor = some 11 ∧ meetsArmed.last = some 65535
      ∧ valueAt meetsArmed.cfg 11 = some 200 ∧ meetsArmed.handler = ⟨0, 0⟩
      ∧ meetsArmed.cfg.matchOnWrite = true ∧ meetsArmed.tcnt = (65535 + 200) % meetsArmed.cfg.period) := by decide

/-- The word invariant where nothing was written and no port is driven. -/
theorem wordInv_quiet {s : State} (ht : s.tcnt < s.cfg.period) (hc : s.cmp < s.cfg.period)
    (hl : ∀ l, s.last = some l → l < s.cfg.period) (ho : s.out = Outputs.idle) (hr : s.counterRead = none)
    (hh : s.hist = []) : WordInv s := by
  refine ⟨ht, hc, hl, ?_, ?_, ?_⟩ <;> simp [ho, hr, hh, Outputs.idle, cmpWrites]

/-- An enabled EDGE with the entry 5 inside which `h` passes, the counter at `t`, the old compare value 300. -/
def slow (mow : Bool) (t : Nat) (h : HandlerTicks) : State :=
  { st { cfgTable [5] with matchOnWrite := mow } .armed (some 0) (some 300) false [] with
    tcnt := t, handler := h, ie := true, srcEn := true }

/-- The hypotheses of `MatchDuringEdge`. -/
def DuringHyps (s : State) (c l v n : Nat) : Prop :=
  s.cfg.wf = true ∧ WordInv s ∧ s.fsm = .armed ∧ s.cursor = some c ∧ s.last = some l ∧ valueAt s.cfg c = some v
  ∧ n = matchesDuringEdge s.cfg s.handler s.tcnt s.cmp (reArmAdd s.cfg l v)

theorem slow_meets (mow : Bool) (t : Nat) (h : HandlerTicks) (ht : t < 65536) (n : Nat)
    (hn : n = matchesDuringEdge (slow mow t h).cfg h t 300 305) : DuringHyps (slow mow t h) 0 300 5 n := by
  refine ⟨?_, wordInv_quiet ht (by show 300 < 65536; decide) ?_ rfl rfl rfl, rfl, rfl, rfl, ?_, ?_⟩
  · cases mow <;> rfl
  · intro l hl; cases hl; show 300 < 65536; decide
  · cases mow <;> rfl
  · rw [hn]; rfl

/-- Each clause at its boundary: the last tick before the write, the write tick itself, the last tick before the
signal. -/
theorem witness_MatchDuringEdge :
    (DuringHyps (slow false 297 ⟨3, 0⟩) 0 300 5 1 ∧ ticksToMatch (slow false 297 ⟨3, 0⟩).cfg 297 300 ≤ 3)
    ∧ (DuringHyps (slow true 303 ⟨2, 0⟩) 0 300 5 1
      ∧ (303 + 2) % (slow true 303 ⟨2, 0⟩).cfg.period = reArmAdd (slow true 303 ⟨2, 0⟩).cfg 300 5)
    ∧ (DuringHyps (slow false 302 ⟨1, 2⟩) 0 300 5 1 ∧ ticksToMatch (slow false 302 ⟨1, 2⟩).cfg ((302 + 1) % 65536) 305 ≤ 2)
    ∧ DuringHyps (slow false 298 ⟨4, 3⟩) 0 300 5 2
    ∧ (slow false 297 ⟨3, 0⟩).ie = true ∧ (slow false 297 ⟨3, 0⟩).srcEn = true :=
  ⟨⟨slow_meets _ _ _ (by decide) _ (by decide), by decide⟩, ⟨slow_meets _ _ _ (by decide) _ (by decide), by decide⟩,
    ⟨slow_meets _ _ _ (by decide) _ (by decide), by decide⟩, slow_meets _ _ _ (by decide) _ (by decide), rfl, rfl⟩
theorem witness_SigclrRule :
    (⟨0x03, 1, 2⟩ : Command).cmd = 0x03 ∧ (⟨0x83, 0, 0⟩ : Command).cmd = 0x83 ∧ Live (armed 0 300 true) := by decide

/-- The signal invariant of a fresh launch, where nothing was signalled. -/
theorem signalInv_unarmed (xs : List Input) : SignalInv (with_ unarmed xs) := by
  refine ⟨fun h => (by cases h), ⟨fun h => (by cases h), ?_⟩, fun _ => rfl⟩
  rintro ⟨a, b, h, -⟩
  simp [with_, unarmed, st, State.launch] at h

theorem witness_SigrdRule :
    ((⟨0x04, 1, 2⟩ : Command).cmd = 0x04 ∧ (⟨0x84, 0, 0⟩ : Command).cmd = 0x84 ∧ Live (armed 0 300 true))
    ∧ SignalInv (with_ unarmed []) ∧ (with_ unarmed []).fsm = .unarmed :=
  ⟨by decide, signalInv_unarmed [], rfl⟩
theorem witness_SigrcRule :
    (⟨0x05, 1, 2⟩ : Command).cmd = 0x05 ∧ (⟨0x85, 0, 0⟩ : Command).cmd = 0x85 ∧ Live (armed 0 300 true) := by decide
theorem witness_AdderWraps :
    (unarmed.fsm = .unarmed ∧ unarmed.ie = false)
    ∧ (armed 11 65535 true).fsm = .armed ∧ (armed 11 65535 true).cursor = some 11
    ∧ (armed 11 65535 true).last = some 65535 ∧ valueAt (armed 11 65535 true).cfg 11 = some 200 := by decide
theorem witness_CheckPriority :
    ((⟨0x8F, 0, 0⟩ : Command).cmd.toNat / 16 % 8 ≠ 0 ∨ 6 ≤ (⟨0x8F, 0, 0⟩ : Command).cmd.toNat % 16)
    ∧ (⟨0x11, 0, 0⟩ : Command).cmd = 0x11
    ∧ (Live (armed 0 300 true) ∧ decode (armed 0 300 true).cfg.regWidth ⟨0x81, 0, 0⟩ = .reject .context)
    ∧ (enabled (armed 0 300 false)).fsm = .armed ∧ (enabled (armed 0 300 false)).ie = true
    ∧ unarmed.fsm = .unarmed := by decide
theorem witness_UnarmedBehaviour :
    SignalInv (with_ unarmed []) ∧ (with_ unarmed []).fsm = .unarmed ∧ (with_ unarmed []).ie = false :=
  ⟨signalInv_unarmed [], by decide⟩
theorem witness_UnarmedBehaviour_enabled :
    SignalInv { unarmed with ie := true } ∧ ({ unarmed with ie := true } : State).fsm = .unarmed
    ∧ ({ unarmed with ie := true } : State).ie = true :=
  ⟨signalInv_unarmed [], by decide⟩
theorem witness_DoubleFire :
    (armed 11 65535 false).cfg.wf = true ∧ (armed 11 65535 false).fsm = .armed
    ∧ (armed 11 65535 false).cursor = some 11 ∧ (armed 11 65535 false).last = some 65535
    ∧ valueAt (armed 11 65535 false).cfg 11 = some 200
    ∧ valueAt (armed 11 65535 false).cfg (nextCursor (armed 11 65535 false).cfg 11) = some 1000 := by decide

/-- The state ARM leaves: its one compare write stands in the history. -/
def justArmed : State := { armed 0 300 false with hist := [.cmpWritten 300] }

theorem registerInv_justArmed : RegisterInv justArmed :=
  ⟨by decide, fun _ => ⟨0, 300, by decide⟩, fun h => by cases h⟩
theorem witness_EveryCommandCompletes : justArmed.cfg.wf = true ∧ RegisterInv justArmed ∧ Live justArmed :=
  ⟨by decide, registerInv_justArmed, by decide⟩
theorem witness_CommandFrame : exec .edge justArmed = .next (edgeSteps 0 300 1000 justArmed) := rfl
theorem witness_ForegroundCannotReachScheduler :
    Live (armed 0 300 true) ∧ Instr.sigrc ∈ [Instr.nop, .sigclr, .sigrd, .sigrc] := by decide
theorem witness_EdgeIgnoresCounterAndMatchFlag :
    exec .edge justArmed = .next (edgeSteps 0 300 1000 justArmed) := rfl
theorem witness_OnlyEdgeMovesTheSchedule :
    ((armed 0 300 true).fsm = .armed ∧ Instr.nop ∈ [Instr.nop, .sigclr, .sigrd, .sigrc])
    ∧ justArmed.fsm = .armed
    ∧ step (with_ justArmed [present ⟨0x82, 0, 0⟩]) = .next (edgeSteps 0 300 1000 justArmed)
    ∧ (edgeSteps 0 300 1000 justArmed).last ≠ (with_ justArmed [present ⟨0x82, 0, 0⟩]).last :=
  ⟨by decide, rfl, rfl, by decide⟩
theorem witness_NoStepWhereStuck :
    faulted.fsm = .faulted ∧ (st (cfgOf false) .triggering (some 0) (some 0) false []).fsm = .triggering
    ∧ (with_ (enabled faulted) [.dispatch]).cfg.wf = true
    ∧ (with_ (enabled faulted) [.dispatch]).inputs = .dispatch :: []
    ∧ ((with_ (enabled faulted) [.dispatch]).fsm = .faulted
      ∨ (with_ (enabled faulted) [.dispatch]).fsm = .triggering) := by decide
theorem witness_TableReads :
    ((cfgOf false).wf = true ∧ 11 < (cfgOf false).tableLen) ∧ (cfgOf false).tableLen ≤ 12
    ∧ (armed 12 0 false).fsm = .armed ∧ (armed 12 0 false).cursor = some 12 ∧ (armed 12 0 false).last = some 0
    ∧ (armed 12 0 false).cfg.tableLen ≤ 12 := by decide
theorem witness_NextCursorForms :
    (1 ≤ (cfgOf false).tableLen ∧ 11 < (cfgOf false).tableLen)
    ∧ (1 ≤ (cfgTable [500]).tableLen ∧ 0 < (cfgTable [500]).tableLen ∧ (cfgTable [500]).tableLen = 1)
    ∧ (3 < (cfgTable [1, 2, 3, 4]).tableLen
      ∧ (cfgTable [1, 2, 3, 4]).tableLen = 2 ^ cursorWidth (cfgTable [1, 2, 3, 4])) := by decide
theorem witness_CursorWrapLaw :
    1 ≤ (cfgOf false).tableLen ∧ 11 < (cfgOf false).tableLen ∧ 0 < 11 ∧ 11 < (cfgOf false).tableLen := by decide

/-- Twelve EDGEs presented from the last cursor. -/
def twelveEdges : State := with_ (armed 11 65535 false) (List.replicate 12 (present (encode .edge)) ++ [.tick])

theorem witness_TablePeriodLaw :
    twelveEdges.cfg.wf = true ∧ twelveEdges.fsm = .armed ∧ twelveEdges.cursor = some 11
    ∧ 11 < twelveEdges.cfg.tableLen ∧ twelveEdges.last = some 65535
    ∧ twelveEdges.inputs = List.replicate twelveEdges.cfg.tableLen (present (encode .edge)) ++ [.tick] := by decide
theorem witness_StepRunsDecodedCommand :
    (with_ unarmed [present ⟨0x01, 65535, 1⟩]).cfg.wf = true
    ∧ (with_ unarmed [present ⟨0x01, 65535, 1⟩]).inputs = .cycle ⟨false, true, ⟨0x01, 65535, 1⟩⟩ :: []
    ∧ (⟨false, true, ⟨0x01, 65535, 1⟩⟩ : PortCycle).rst = false
    ∧ (⟨false, true, ⟨0x01, 65535, 1⟩⟩ : PortCycle).cmdValid = true
    ∧ decode 16 ⟨0x01, 65535, 1⟩ = .command (.arm 65535 1) ∧ (Instr.arm 65535 1).wf 16 = true := by decide
theorem witness_StepFaultsRejectedWord :
    (with_ unarmed [present ⟨0xFF, 0, 0⟩]).cfg.wf = true
    ∧ (with_ unarmed [present ⟨0xFF, 0, 0⟩]).inputs = present ⟨0xFF, 0, 0⟩ :: []
    ∧ Live (with_ unarmed [present ⟨0xFF, 0, 0⟩]) ∧ decode 16 ⟨0xFF, 0, 0⟩ = .reject .reservedCmd
    ∧ decode 16 ⟨0x02, 0, 0⟩ = .reject .context := by decide
theorem witness_IdleCycleChangesNothing :
    (with_ faulted [.cycle ⟨false, false, ⟨0x82, 0, 0⟩⟩]).cfg.wf = true
    ∧ (with_ faulted [.cycle ⟨false, false, ⟨0x82, 0, 0⟩⟩]).inputs = .cycle ⟨false, false, ⟨0x82, 0, 0⟩⟩ :: []
    ∧ (⟨false, false, ⟨0x82, 0, 0⟩⟩ : PortCycle).rst = false
    ∧ (⟨false, false, ⟨0x82, 0, 0⟩⟩ : PortCycle).cmdValid = false := by decide
theorem witness_DispatchIssuesEdge :
    (with_ (enabled justArmed) [.dispatch]).cfg.wf = true
    ∧ (with_ (enabled justArmed) [.dispatch]).inputs = .dispatch :: []
    ∧ ((enabled justArmed).ie = true ∧ (enabled justArmed).srcEn = true ∧ (enabled justArmed).mf = true
      ∧ (enabled justArmed).fsm ≠ .triggering ∧ (enabled justArmed).fsm ≠ .faulted)
    ∧ ¬ (justArmed.ie = true ∧ justArmed.srcEn = true ∧ justArmed.mf = true ∧ justArmed.fsm ≠ .triggering
      ∧ justArmed.fsm ≠ .faulted) := by decide
theorem witness_MergedMatchesCauseOneEdge :
    (with_ (enabled (armed 11 65535 false)) [.dispatch, .dispatch]).cfg.wf = true
    ∧ (enabled (armed 11 65535 false)).fsm = .armed ∧ (enabled (armed 11 65535 false)).cursor = some 11
    ∧ (enabled (armed 11 65535 false)).last = some 65535
    ∧ valueAt (enabled (armed 11 65535 false)).cfg 11 = some 200
    ∧ (enabled (armed 11 65535 false)).ie = true ∧ (enabled (armed 11 65535 false)).srcEn = true
    ∧ (enabled (armed 11 65535 false)).mf = true
    ∧ matchesDuringEdge (cfgOf false) (enabled (armed 11 65535 false)).handler (enabled (armed 11 65535 false)).tcnt
      (enabled (armed 11 65535 false)).cmp (reArmAdd (cfgOf false) 65535 200) = 0
    ∧ (with_ (enabled (armed 11 65535 false)) [.dispatch, .dispatch]).inputs = .dispatch :: .dispatch :: [] := by
  decide
theorem witness_PlatformCalls :
    unarmed.cfg.wf = true ∧ (with_ unarmed [.setIe true]).inputs = .setIe true :: []
    ∧ (with_ unarmed [.enableToggle]).inputs = .enableToggle :: []
    ∧ (with_ unarmed [.installHandler]).inputs = .installHandler :: []
    ∧ (with_ unarmed [.ackMatchFlag]).inputs = .ackMatchFlag :: []
    ∧ (with_ unarmed [.readCounter]).inputs = .readCounter :: []
    ∧ (with_ unarmed [.handler ⟨70000, 0⟩]).inputs = .handler ⟨70000, 0⟩ :: [] := by decide
theorem witness_TableNeverChanges : step faulted = .next faulted := rfl
theorem witness_HistoryIsAppendOnly : step (with_ unarmed [present ⟨0x03, 0, 0⟩]) = .next (clearSignal unarmed) := rfl
theorem witness_ReadDataOnlyInReads :
    step (with_ (armed 0 300 true) [present ⟨0x04, 0, 0⟩]) = .next (returnBit true (armed 0 300 true))
    ∧ (returnBit true (armed 0 300 true)).out.rdata = some true
    ∧ (with_ (armed 0 300 true) [present ⟨0x05, 0, 0⟩]).cfg.wf = true
    ∧ Live (with_ (armed 0 300 true) [present ⟨0x05, 0, 0⟩])
    ∧ (with_ (armed 0 300 true) [present ⟨0x05, 0, 0⟩]).inputs = present ⟨0x05, 0, 0⟩ :: [] ∧ 1 ≤ 1 :=
  ⟨rfl, by decide⟩
theorem witness_FaultsArePrecise :
    step (with_ unarmed [present ⟨0x82, 0, 0⟩]) = .next (raiseFault .edgeUnarmed 0x82 unarmed)
    ∧ (with_ unarmed [present ⟨0x82, 0, 0⟩]).fsm ≠ .faulted
    ∧ (raiseFault .edgeUnarmed 0x82 unarmed).fsm = .faulted :=
  ⟨rfl, by decide⟩
theorem witness_OnlyResetLeavesFaulted :
    step (with_ faulted [.cycle ⟨true, false, ⟨0, 0, 0⟩⟩]) = .next (resetBlock faulted) ∧ faulted.fsm = .faulted :=
  ⟨rfl, rfl⟩
theorem witness_FsmTransitions :
    step (with_ unarmed [present ⟨0x01, 0, 300⟩]) = .next (armSteps 300 unarmed)
    ∧ unarmed.fsm ≠ .triggering ∧ (armSteps 300 unarmed).fsm ≠ unarmed.fsm :=
  ⟨rfl, by decide⟩
theorem witness_StepKeepsRegisterInvariant :
    RegisterInv (with_ justArmed [present ⟨0x82, 0, 0⟩])
    ∧ step (with_ justArmed [present ⟨0x82, 0, 0⟩]) = .next (edgeSteps 0 300 1000 justArmed) :=
  ⟨registerInv_justArmed, rfl⟩
theorem witness_StepKeepsFaultInvariant :
    FaultInv (with_ unarmed [present ⟨0x82, 0, 0⟩])
    ∧ step (with_ unarmed [present ⟨0x82, 0, 0⟩]) = .next (raiseFault .edgeUnarmed 0x82 unarmed) :=
  ⟨⟨by decide, by decide⟩, rfl⟩
theorem witness_StepKeepsSignalInvariant :
    SignalInv (with_ unarmed [present ⟨0x03, 0, 0⟩])
    ∧ step (with_ unarmed [present ⟨0x03, 0, 0⟩]) = .next (clearSignal unarmed) :=
  ⟨signalInv_unarmed _, rfl⟩
theorem witness_StepKeepsScheduleInvariant :
    ScheduleInv (with_ justArmed [present ⟨0x82, 0, 0⟩])
    ∧ step (with_ justArmed [present ⟨0x82, 0, 0⟩]) = .next (edgeSteps 0 300 1000 justArmed) :=
  ⟨⟨by decide, fun _ => ⟨300, 0, by decide⟩, fun h => by cases h⟩, rfl⟩

/-- No clear stands in the history yet. -/
theorem readBeforeClear_nil : ReadBeforeClear [] := by
  intro a b h
  simp at h

theorem witness_StepKeepsWordInvariant :
    Launch.wf (cfgOf true) ⟨65535, 65535, true, true, true, true, true⟩ = true
    ∧ WordInv (with_ (armed 11 65535 false) [present ⟨0x82, 0, 0⟩])
    ∧ step (with_ (armed 11 65535 false) [present ⟨0x82, 0, 0⟩]) = .next (edgeSteps 11 65535 200 (armed 11 65535 false)) := by
  refine ⟨by decide, wordInv_quiet ?_ ?_ ?_ rfl rfl rfl, rfl⟩
  · show 0 < 65536; decide
  · show 65535 < 65536; decide
  · intro l hl; cases hl; show 65535 < 65536; decide

theorem witness_SigrcErasesNothingUnread :
    SignalInv (with_ unarmed [present ⟨0x05, 0, 0⟩]) ∧ ReadBeforeClear (with_ unarmed [present ⟨0x05, 0, 0⟩]).hist
    ∧ step (with_ unarmed [present ⟨0x05, 0, 0⟩]) = .next (clearSignal (returnBit false unarmed))
    ∧ ∀ (p : PortCycle) (rest : List Input), (with_ unarmed [present ⟨0x05, 0, 0⟩]).inputs = .cycle p :: rest →
        p.cmdValid = true → p.command.cmd ≠ 0x03 := by
  refine ⟨signalInv_unarmed _, readBeforeClear_nil, rfl, fun p rest h _ => ?_⟩
  cases h
  decide
theorem witness_ProgrammedScheduleLaw :
    unarmed.cfg.wf = true ∧ unarmed.fsm = .unarmed ∧ unarmed.ie = false ∧ cmpWrites unarmed.hist = []
    ∧ NoReset (with_ unarmed [present ⟨0x82, 0, 0⟩]).inputs
    ∧ exec (.arm 0 300) (with_ unarmed [present ⟨0x82, 0, 0⟩])
      = .next (armSteps 300 (with_ unarmed [present ⟨0x82, 0, 0⟩]))
    ∧ core.run 1 (armSteps 300 (with_ unarmed [present ⟨0x82, 0, 0⟩]))
      = .next (edgeSteps 0 300 1000 (beginCycle [] (armSteps 300 unarmed)))
    ∧ (edgeSteps 0 300 1000 (beginCycle [] (armSteps 300 unarmed))).fsm = .armed := by
  refine ⟨by decide, rfl, rfl, rfl, ?_, rfl, rfl, rfl⟩
  intro p hp
  simp [with_, present] at hp
  simp [hp]
theorem witness_SignalObservationLaw : SignalInv (with_ unarmed []) ∧ Live (with_ unarmed []) :=
  ⟨signalInv_unarmed [], by decide⟩

/-- One full period of ticks. -/
def aPeriod : State := with_ unarmed (List.replicate 65536 .tick ++ [.dispatch])

theorem witness_TimerLaw :
    aPeriod.cfg.wf = true ∧ WordInv aPeriod ∧ aPeriod.inputs = List.replicate 65536 .tick ++ [.dispatch] :=
  ⟨by decide, wordInv_quiet (by show 0 < 65536; decide) (by show 0 < 65536; decide) (by intro l hl; cases hl) rfl rfl rfl,
    rfl⟩
theorem witness_OneTick :
    (with_ unarmed [.tick]).cfg.wf = true ∧ (with_ unarmed [.tick]).inputs = .tick :: []
    ∧ (1 = ((armed 0 300 false).tcnt + 1) % 2 ^ (armed 0 300 false).cfg.regWidth ∧ 1 ≠ (armed 0 300 false).cmp)
    ∧ (1 = (armed 0 1 false).cmp ∧ (armed 0 1 false).toggleEn = false)
    ∧ 0 = (({ armed 0 0 false with tcnt := 65535 } : State).tcnt + 1) % 2 ^ (armed 0 0 false).cfg.regWidth
    ∧ 0 = (armed 0 0 false).cmp ∧ ({ armed 0 0 false with toggleEn := true } : State).toggleEn = true := by decide

/-- A match at 17300 whose EDGE, with the entry 200, is dispatched `L` ticks later and takes `h`, then `d` more ticks
(V-T1 to V-T3). -/
def late (mow : Bool) (L : Nat) (h : HandlerTicks) (d : Nat) : State :=
  { st (cfgOf mow) .armed (some 6) (some 17300) false
      (List.replicate L .tick ++ .dispatch :: (List.replicate d .tick ++ [])) with
    tcnt := 17300, mf := true, ie := true, srcEn := true, handler := h }

/-- The hypotheses of `RealisedEdgeTimes`. -/
def RealisedHyps (s : State) (c L Lk d P T : Nat) (rest : List Input) : Prop :=
  s.cfg.wf = true ∧ WordInv s ∧ s.fsm = .armed ∧ s.cursor = some c ∧ c < s.cfg.tableLen ∧ s.last = some P ∧ s.cmp = P
  ∧ s.tcnt = P ∧ s.mf = true ∧ s.ie = true ∧ s.srcEn = true ∧ T = s.cfg.table.getD c 0 ∧ Lk = L + s.handler.toWrite
  ∧ Lk < s.cfg.period ∧ s.handler.toSignal + d < writeToMatch s.cfg T Lk + s.cfg.period
  ∧ s.inputs = List.replicate L .tick ++ .dispatch :: (List.replicate d .tick ++ rest)

theorem late_meets (mow : Bool) (L : Nat) (h : HandlerTicks) (d Lk : Nat) (hk : Lk = L + h.toWrite) (hL : Lk < 65536)
    (hd : h.toSignal + d < writeToMatch (cfgOf mow) 200 Lk + 65536) :
    RealisedHyps (late mow L h d) 6 L Lk d 17300 200 [] := by
  have h6 : 6 < (cfgOf mow).tableLen := by cases mow <;> decide
  refine ⟨?_, wordInv_quiet ?_ ?_ ?_ rfl rfl rfl, rfl, rfl, h6, rfl, rfl, rfl, rfl, rfl, rfl, rfl, hk, hL, hd, rfl⟩
  · show (cfgOf mow).wf = true
    cases mow <;> decide
  · show 17300 < 65536; decide
  · show 17300 < 65536; decide
  · intro l hl; cases hl; show 17300 < 65536; decide

/-- The largest `d` for a prompt EDGE, for a late one (V-T2), and for one on the write tick (V-T3) with either answer
of the platform; then ticks inside the EDGE. -/
theorem witness_RealisedEdgeTimes :
    RealisedHyps (late false 50 ⟨0, 0⟩ 65685) 6 50 50 65685 17300 200 []
    ∧ RealisedHyps (late false 250 ⟨0, 0⟩ 131021) 6 250 250 131021 17300 200 []
    ∧ RealisedHyps (late false 200 ⟨0, 0⟩ 131071) 6 200 200 131071 17300 200 []
    ∧ RealisedHyps (late true 200 ⟨0, 0⟩ 65535) 6 200 200 65535 17300 200 []
    ∧ RealisedHyps (late true 65535 ⟨0, 0⟩ 0) 6 65535 65535 0 17300 200 []
    ∧ RealisedHyps (late false 40 ⟨210, 20⟩ 131001) 6 40 250 131001 17300 200 []
    ∧ RealisedHyps (late true 40 ⟨10, 140⟩ 10) 6 40 50 10 17300 200 [] :=
  ⟨late_meets _ _ _ _ _ rfl (by decide) (by decide), late_meets _ _ _ _ _ rfl (by decide) (by decide),
    late_meets _ _ _ _ _ rfl (by decide) (by decide), late_meets _ _ _ _ _ rfl (by decide) (by decide),
    late_meets _ _ _ _ _ rfl (by decide) (by decide), late_meets _ _ _ _ _ rfl (by decide) (by decide),
    late_meets _ _ _ _ _ rfl (by decide) (by decide)⟩

/-- The counter read, `L0` ticks, ARM with the counter's value, `d` more ticks (V-T4). -/
def firstEdge (mow : Bool) (now lead L0 d : Nat) : State :=
  { st (cfgOf mow) .unarmed none none false
      (.readCounter :: (List.replicate L0 .tick ++ present (encode (.arm now lead)) :: (List.replicate d .tick ++ [])))
    with tcnt := now }

/-- The hypotheses of `FirstEdgeTime`. -/
def FirstEdgeHyps (s : State) (now lead L0 d : Nat) (rest : List Input) : Prop :=
  s.cfg.wf = true ∧ WordInv s ∧ s.fsm = .unarmed ∧ s.ie = false ∧ s.tcnt = now ∧ lead < s.cfg.period
  ∧ L0 < s.cfg.period ∧ d < writeToMatch s.cfg lead L0 + s.cfg.period
  ∧ s.inputs = .readCounter
    :: (List.replicate L0 .tick ++ present (encode (.arm now lead)) :: (List.replicate d .tick ++ rest))

theorem firstEdge_meets (mow : Bool) (now lead L0 d : Nat) (hn : now < 65536) (hl : lead < 65536) (hL : L0 < 65536)
    (hd : d < writeToMatch (cfgOf mow) lead L0 + 65536) :
    FirstEdgeHyps (firstEdge mow now lead L0 d) now lead L0 d [] := by
  refine ⟨?_, wordInv_quiet hn ?_ ?_ rfl rfl rfl, rfl, rfl, rfl, hl, hL, hd, rfl⟩
  · show (cfgOf mow).wf = true
    cases mow <;> decide
  · show 0 < 65536; decide
  · intro l hl; cases hl

/-- A lead longer than, shorter than (V-T4) and equal to the ticks before ARM's write, with the largest `d`. -/
theorem witness_FirstEdgeTime :
    FirstEdgeHyps (firstEdge false 65000 300 20 65815) 65000 300 20 65815 []
    ∧ FirstEdgeHyps (firstEdge false 0 0 1 131070) 0 0 1 131070 []
    ∧ FirstEdgeHyps (firstEdge true 7 0 0 65535) 7 0 0 65535 [] :=
  ⟨firstEdge_meets _ _ _ _ _ (by decide) (by decide) (by decide) (by decide),
    firstEdge_meets _ _ _ _ _ (by decide) (by decide) (by decide) (by decide),
    firstEdge_meets _ _ _ _ _ (by decide) (by decide) (by decide) (by decide)⟩
theorem witness_BootArms :
    Config.wf Config.hardware = true ∧ Launch.wf Config.hardware ⟨65535, 0, true, true, true, true, true⟩ = true
    ∧ 1 < Config.hardware.period ∧ 0 = (65535 + 1) % Config.hardware.period := by decide
theorem witness_StaleMatchLosesFirstEdge :
    (Config.wf (cfgOf true) = true ∧ Launch.wf (cfgOf true) { Launch.family with mf := true } = true
      ∧ 300 < (cfgOf true).period ∧ ({ Launch.family with mf := true } : Launch).mf = true
      ∧ valueAt (cfgOf true) 0 = some 1000 ∧ 300 = (Launch.family.tcnt + 300) % (cfgOf true).period
      ∧ 1300 = (300 + 1000) % (cfgOf true).period
      ∧ ((cfgOf true).matchOnWrite = false ∨ (300 : Nat) ≠ 0)
      ∧ matchesDuringEdge (cfgOf true) ⟨20, 10⟩ Launch.family.tcnt 300 1300 = 0)
    ∧ ({ Launch.family with ie := true } : Launch).ie = true := by decide

end Sys2Proof.Tests
end

section
/-! SUPPORT and proofs for the family of spec/00_scope.md: the parameters of a launch (R9, R10) and the words of `W`
bits they bound. -/

namespace Sys2Proof.Machine

/-! A well-formed configuration (R10). -/

theorem entryOk_iff (cfg : Config) (e : Nat) : cfg.entryOk e = true ↔ 1 ≤ e ∧ e ≤ 2 ^ cfg.regWidth - 1 := by
  simp [Config.entryOk]

theorem config_wf_iff (cfg : Config) :
    cfg.wf = true ↔ 1 ≤ cfg.regWidth ∧ 1 ≤ cfg.tableLen ∧ cfg.table.length = cfg.tableLen
      ∧ ∀ e ∈ cfg.table, 1 ≤ e ∧ e ≤ 2 ^ cfg.regWidth - 1 := by
  simp only [Config.wf, Bool.and_eq_true, decide_eq_true_eq, List.all_eq_true, entryOk_iff, and_assoc]

theorem step_illFormed {s : State} (h : s.cfg.wf = false) : step s = .refused .illFormedConfig := by
  simp [step, h]

/-- Settles O4: the checks of `Config.wf` read as propositions, and `step` tests them first. -/
theorem illFormedConfigurationHasNoRun : Obligations.IllFormedConfigurationHasNoRun :=
  ⟨config_wf_iff, fun _ h => step_illFormed h⟩

/-! The cursor's width (R9, D4). -/

/-- The model's search finds Mathlib's upper logarithm, which stands in the searched range because `n ≤ 2 ^ n`. -/
theorem ceilLog2_eq_clog (n : Nat) : ceilLog2 n = Nat.clog 2 n := by
  have hrange : Nat.clog 2 n ≤ n := Nat.clog_le_of_le_pow Nat.lt_two_pow_self.le
  have hfind : (List.range (n + 1)).find? (fun k => decide (n ≤ 2 ^ k)) = some (Nat.clog 2 n) := by
    rw [List.find?_range_eq_some]
    refine ⟨?_, ?_, fun j hj => ?_⟩
    · simpa using Nat.le_pow_clog (by decide) n
    · simpa using hrange
    · simpa using Nat.pow_lt_of_lt_clog hj
  rw [ceilLog2, hfind, Option.getD_some]

theorem cursorWidth_eq (cfg : Config) : cursorWidth cfg = max 1 (Nat.clog 2 cfg.tableLen) := by
  rw [cursorWidth, ceilLog2_eq_clog]

theorem tableLen_le_two_pow_cursorWidth (cfg : Config) : cfg.tableLen ≤ 2 ^ cursorWidth cfg := by
  rw [cursorWidth_eq]
  calc cfg.tableLen ≤ 2 ^ Nat.clog 2 cfg.tableLen := Nat.le_pow_clog (by decide) _
    _ ≤ 2 ^ max 1 (Nat.clog 2 cfg.tableLen) := Nat.pow_le_pow_right (by decide) (le_max_right _ _)

theorem cursorWidth_le {cfg : Config} {k : Nat} (hk : 1 ≤ k) (h : cfg.tableLen ≤ 2 ^ k) : cursorWidth cfg ≤ k := by
  rw [cursorWidth_eq]
  exact max_le hk (Nat.clog_le_of_le_pow h)

/-- Settles O6: `cursorWidth` is the larger of 1 and the upper logarithm of the table's length. -/
theorem cursorWidthIsSmallest : Obligations.CursorWidthIsSmallest :=
  ⟨fun cfg _ => ⟨le_max_left _ _, tableLen_le_two_pow_cursorWidth cfg, fun _ hk h => cursorWidth_le hk h⟩, by decide⟩

/-! The word invariant. First the operations that touch no register of `W` bits: they neither make nor break it. -/

section
variable {s : State}

@[simp] theorem wordInv_toFsm_iff (f : Fsm) : WordInv (toFsm f s) ↔ WordInv s := Iff.rfl
@[simp] theorem wordInv_setCursor_iff (c : Nat) : WordInv (setCursor c s) ↔ WordInv s := Iff.rfl
@[simp] theorem wordInv_acknowledge_iff : WordInv (acknowledge s) ↔ WordInv s := by simp [WordInv]
@[simp] theorem wordInv_signal_iff : WordInv (signal s) ↔ WordInv s := by simp [WordInv]
@[simp] theorem wordInv_clearSignal_iff : WordInv (clearSignal s) ↔ WordInv s := by simp [WordInv]
@[simp] theorem wordInv_returnBit_iff (b : Bool) : WordInv (returnBit b s) ↔ WordInv s := by simp [WordInv]
@[simp] theorem wordInv_raiseFault_iff (code : FaultCode) (w : BitVec 8) :
    WordInv (raiseFault code w s) ↔ WordInv s := by simp [WordInv]
@[simp] theorem wordInv_afterMatches_iff (m : Nat) : WordInv (afterMatches m s) ↔ WordInv s := by
  simp [WordInv, afterMatches]

/-! Then those that write such a register: each writes a word, or empties it. -/

theorem wordInv_setLast (h : WordInv s) {t : Nat} (ht : t < s.cfg.period) : WordInv (setLast t s) := by
  obtain ⟨htcnt, hcmp, -, hout, hread, hhist⟩ := h
  exact ⟨htcnt, hcmp, by simpa using ht, hout, hread, hhist⟩

/-- A compare write shows its value in `CMP`, on `cmp_data_o` and in the history (R42). -/
theorem wordInv_cmpWrite (h : WordInv s) {v : Nat} (hv : v < s.cfg.period) : WordInv (cmpWrite v s) := by
  obtain ⟨htcnt, -, hlast, -, hread, hhist⟩ := h
  rw [cmpWrite_eq, wordInv_afterMatches_iff]
  refine ⟨htcnt, hv, hlast, by simpa using hv, hread, fun w hw => ?_⟩
  rw [cmpWrites_append, List.mem_append] at hw
  rcases hw with hw | hw
  · exact hhist w hw
  · rw [List.mem_singleton.1 hw]; exact hv

@[simp] theorem cmpWrite_cfg (v : Nat) : (cmpWrite v s).cfg = s.cfg := by rw [cmpWrite_eq]; rfl

theorem wordInv_timerTick (h : WordInv s) : WordInv (timerTick s) := by
  obtain ⟨-, hcmp, hlast, hout, hread, hhist⟩ := h
  rw [timerTick_eq, wordInv_afterMatches_iff]
  exact ⟨nextCount_lt _ _, hcmp, hlast, hout, hread, hhist⟩

theorem wordInv_runTicks (n : Nat) (h : WordInv s) : WordInv (runTicks n s) := by
  induction n generalizing s with
  | zero => exact h
  | succ n ih => exact ih (wordInv_timerTick h)

@[simp] theorem runTicks_cfg (n : Nat) : (runTicks n s).cfg = s.cfg := by rw [runTicks_eq]; rfl

theorem wordInv_resetBlock (h : WordInv s) : WordInv (resetBlock s) := by
  obtain ⟨htcnt, hcmp, -, hout, hread, -⟩ := h
  exact ⟨htcnt, hcmp, by simp, hout, hread, by simp⟩

theorem wordInv_beginCycle (rest : List Input) (h : WordInv s) : WordInv (beginCycle rest s) := by
  obtain ⟨htcnt, hcmp, hlast, -, hread, hhist⟩ := h
  exact ⟨htcnt, hcmp, hlast, by simp [Outputs.idle], hread, hhist⟩

/-- The counter the foreground reads holds a word (R175). -/
theorem wordInv_readCounter (h : WordInv s) : WordInv { s with counterRead := some s.tcnt } := by
  obtain ⟨htcnt, hcmp, hlast, hout, -, hhist⟩ := h
  exact ⟨htcnt, hcmp, hlast, hout, by simpa using htcnt, hhist⟩

/-! The two commands that write `CMP` and `LAST`, step by step (R90, R93). -/

theorem wordInv_armSteps (h : WordInv s) {t : Nat} (ht : t < s.cfg.period) : WordInv (armSteps t s) := by
  rw [armSteps, wordInv_toFsm_iff, wordInv_setCursor_iff]
  exact wordInv_setLast (wordInv_cmpWrite h ht) (by simpa using ht)

theorem wordInv_edgeSteps (h : WordInv s) (c l v : Nat) : WordInv (edgeSteps c l v s) := by
  have ht := reArmAdd_lt s.cfg l v
  have hwait : WordInv (runTicks s.handler.toWrite (acknowledge (toFsm .triggering s))) :=
    wordInv_runTicks _ (by simpa using h)
  have hwrite := wordInv_cmpWrite hwait (v := reArmAdd s.cfg l v) (by simpa using ht)
  have hlast := wordInv_setLast (wordInv_runTicks s.handler.toSignal hwrite) (t := reArmAdd s.cfg l v) (by simpa using ht)
  simpa [edgeSteps] using hlast

/-! What a command, a transaction and a step keep. -/

theorem Effect.wordInv {i : Instr} {t : State} (he : Effect s i t) (h : WordInv s) : WordInv t := by
  cases he with
  | nop => exact h
  | arm now lead hf hi => exact wordInv_armSteps h (reArmAdd_lt _ _ _)
  | armTwice now lead hf => simpa using h
  | armIrqEnabled now lead hf hi => simpa using h
  | edge c l v hf hc hl hv => exact wordInv_edgeSteps h c l v
  | edgeUnarmed hu => simpa using h
  | sigclr => simpa using h
  | sigrd => simpa using h
  | sigrc => simpa using h

theorem Change.wordInv {x : Input} {t : State} (hx : Change s x t) (h : WordInv s) : WordInv t := by
  cases hx with
  | idle p hr hv => exact h
  | reset p hr => exact wordInv_resetBlock h
  | command p i t hr hv hd hl he => exact he.wordInv h
  | reject p r hr hv hd hl => simpa using h
  | tick => exact wordInv_timerTick h
  | dispatch t hen hl he => exact he.wordInv h
  | noDispatch hen => exact h
  | setIe on => exact h
  | enableToggle => exact h
  | installHandler => exact h
  | ackMatchFlag => exact h
  | readCounter => exact wordInv_readCounter h
  | handler d => exact h

theorem step_keeps_wordInv {t : State} (h : WordInv s) (hst : step s = .next t) : WordInv t := by
  obtain ⟨-, ⟨-, rfl⟩ | ⟨x, rest, -, hx⟩⟩ := step_next hst
  · exact wordInv_beginCycle [] h
  · exact hx.wordInv (wordInv_beginCycle rest h)

end

/-- A launch has written nothing yet; its counter and compare value are words by `Launch.wf` (R171). -/
theorem wordInv_launch {cfg : Config} {l : Launch} (h : l.wf cfg = true) : WordInv (State.launch cfg l) := by
  simp only [Launch.wf, Bool.and_eq_true, decide_eq_true_eq] at h
  obtain ⟨htcnt, hcmp⟩ := h
  refine ⟨htcnt, hcmp, ?_, ?_, ?_, ?_⟩ <;> simp [State.launch, Outputs.idle]

/-- Settles O50: by the cases of what one transaction can do; every write of a register of `W` bits takes a sum
reduced modulo `2^W`, the counter, or no value. -/
theorem stepKeepsWordInvariant : Obligations.StepKeepsWordInvariant :=
  ⟨fun _ _ h => wordInv_launch h, fun _ _ h hst => step_keeps_wordInv h hst⟩

end Sys2Proof.Machine
end

section
/-! SUPPORT and proofs for the family of spec/10_state.md: what a transaction can do to the scheduler's registers, said
once in five cases, and the facts about every step that follow from them. -/

namespace Sys2Proof.Machine

/-! The word of a decoded command (R60, R62). -/

/-- The three fields of a command word are all its bits. -/
theorem word_eq_of_fields {a b : BitVec 8} (hrsv : rsvField a = rsvField b)
    (hop : (opField a).toNat = (opField b).toNat) (hctx : ctxField a = ctxField b) : a = b := by
  replace hrsv := congrArg BitVec.toNat hrsv
  simp only [rsvField, BitVec.extractLsb'_toNat, Nat.shiftRight_eq_div_pow] at hrsv
  simp only [opField, BitVec.extractLsb'_toNat, Nat.shiftRight_eq_div_pow] at hop
  simp only [ctxField, BitVec.getLsbD, Nat.testBit_eq_decide_div_mod_eq, decide_eq_decide] at hctx
  have ha := a.isLt
  have hb := b.isLt
  apply BitVec.eq_of_toNat_eq
  omega

/-- What `OP` selects, it selects by the `OP` of the command's own word (R62). -/
theorem op_of_selectCommand {w : Nat} {c : Command} {i : Instr} (h : selectCommand w c = .command i) :
    (opField c.cmd).toNat = (opField i.word).toNat ∧ ((opField c.cmd).toNat = 2 ↔ i = .edge) := by
  unfold selectCommand at h
  split at h <;> cases h <;> next hop => rw [hop]; exact ⟨rfl, by simp⟩

theorem wordForm (i : Instr) : Laws.WordForm.Statement i := by
  cases i with
  | nop => exact Laws.WordForm.nop
  | arm now lead => exact Laws.WordForm.arm now lead
  | edge => exact Laws.WordForm.edge
  | sigclr => exact Laws.WordForm.sigclr
  | sigrd => exact Laws.WordForm.sigrd
  | sigrc => exact Laws.WordForm.sigrc

/-- Only a command's own word decodes to it (R62). -/
theorem cmd_of_decode {w : Nat} {c : Command} {i : Instr} (h : decode w c = .command i) : c.cmd = i.word := by
  unfold decode at h
  split_ifs at h with hfields hcontext
  obtain ⟨hop, hedge⟩ := op_of_selectCommand h
  obtain ⟨hrsv', -, hctx'⟩ := wordForm i
  have hrsv : rsvField c.cmd = 0 := not_not.1 (not_or.1 hfields).1
  have hctx : (opField c.cmd == 2) = ctxField c.cmd := by simpa using hcontext
  refine word_eq_of_fields (hrsv.trans hrsv'.symm) hop ?_
  rw [← hctx, hctx', Bool.eq_iff_iff, beq_iff_eq, decide_eq_true_eq, ← hedge, ← BitVec.toNat_inj]
  rfl

/-! What the two scheduling commands and the platform leave in the scheduler's registers. -/

section
variable (s : State)

@[simp] theorem armSteps_cfg (t : Nat) : (armSteps t s).cfg = s.cfg := by rw [armSteps_eq]
@[simp] theorem armSteps_fsm (t : Nat) : (armSteps t s).fsm = .armed := by rw [armSteps_eq]
@[simp] theorem armSteps_cursor (t : Nat) : (armSteps t s).cursor = some 0 := by rw [armSteps_eq]
@[simp] theorem armSteps_last (t : Nat) : (armSteps t s).last = some t := by rw [armSteps_eq]
@[simp] theorem armSteps_fault (t : Nat) : (armSteps t s).fault = s.fault := by rw [armSteps_eq]
@[simp] theorem armSteps_cmp (t : Nat) : (armSteps t s).cmp = t := by rw [armSteps_eq]

/-- ARM appends one compare write and no fault (R90). -/
theorem armSteps_hist (t : Nat) :
    ∃ e, (armSteps t s).hist = s.hist ++ e ∧ cmpWrites e = [t] ∧ faultCodes e = [] := by
  rw [armSteps_eq]
  exact ⟨_, List.append_assoc .., by simp, by simp⟩

variable (c l v : Nat)

@[simp] theorem edgeSteps_cfg : (edgeSteps c l v s).cfg = s.cfg := by rw [edgeSteps_eq]
@[simp] theorem edgeSteps_fsm : (edgeSteps c l v s).fsm = .armed := by rw [edgeSteps_eq]
@[simp] theorem edgeSteps_cursor : (edgeSteps c l v s).cursor = some (nextCursor s.cfg c) := by rw [edgeSteps_eq]
@[simp] theorem edgeSteps_last : (edgeSteps c l v s).last = some (reArmAdd s.cfg l v) := by rw [edgeSteps_eq]
@[simp] theorem edgeSteps_fault : (edgeSteps c l v s).fault = s.fault := by rw [edgeSteps_eq]
@[simp] theorem edgeSteps_cmp : (edgeSteps c l v s).cmp = reArmAdd s.cfg l v := by rw [edgeSteps_eq]

/-- EDGE appends one compare write and no fault (R93). -/
theorem edgeSteps_hist :
    ∃ e, (edgeSteps c l v s).hist = s.hist ++ e ∧ cmpWrites e = [reArmAdd s.cfg l v] ∧ faultCodes e = [] := by
  rw [edgeSteps_eq]
  exact ⟨_, by simp only [List.append_assoc]; rfl, by simp, by simp⟩

end

/-! The moves of the scheduler. -/

/-- From `s` to `t` the scheduler rests: `FSM`, `CURSOR`, `LAST`, `FAULT`, `CMP` and the configuration stay, so does
`PEND` where no command has a step, and the events appended are neither compare writes nor faults. -/
structure SchedulerRests (s t : State) : Prop where
  cfg : t.cfg = s.cfg
  fsm : t.fsm = s.fsm
  cursor : t.cursor = s.cursor
  last : t.last = s.last
  fault : t.fault = s.fault
  cmp : t.cmp = s.cmp
  pend : ¬ Live s → t.pend = s.pend
  hist : ∃ e, t.hist = s.hist ++ e ∧ cmpWrites e = [] ∧ faultCodes e = []

/-- The schedule `xs` goes on with a reset cycle (R170). -/
def HeadIsReset (xs : List Input) : Prop := ∃ p rest, xs = .cycle p :: rest ∧ p.rst = true

/-- The schedule `xs` goes on with the presented word `0x01`, ARM's (R62). -/
def HeadPresentsArm (xs : List Input) : Prop :=
  ∃ p rest, xs = .cycle p :: rest ∧ p.rst = false ∧ p.cmdValid = true ∧ p.command.cmd = 0x01

/-- What a transaction at the head of the schedule `xs` can do to the scheduler: let it rest, reset it, fault it, arm
it, or run an EDGE. -/
inductive SchedulerMove (xs : List Input) (s : State) : State → Prop where
  | rest {t : State} (h : SchedulerRests s t) : SchedulerMove xs s t
  | reset (hxs : HeadIsReset xs) : SchedulerMove xs s (resetBlock s)
  | fault (code : FaultCode) (w : BitVec 8) (hl : Live s) (hcode : code ≠ .noFault) :
      SchedulerMove xs s (raiseFault code w s)
  | arm (now lead : Nat) (hxs : HeadPresentsArm xs) (hf : s.fsm = .unarmed) (hi : s.ie = false) :
      SchedulerMove xs s (armSteps (reArmAdd s.cfg now lead) s)
  | edge (c l v : Nat) (hf : s.fsm = .armed) (hc : s.cursor = some c) (hl : s.last = some l)
      (hv : valueAt s.cfg c = some v) : SchedulerMove xs s (edgeSteps c l v s)

section
variable {s t : State}

/-- Registers of the platform and of the foreground are none of the scheduler's. -/
theorem schedulerRests_platform (ie srcEn toggleEn mf : Bool) (counterRead : Option Nat) (handler : HandlerTicks) :
    SchedulerRests s { s with
      ie := ie, srcEn := srcEn, toggleEn := toggleEn, mf := mf, counterRead := counterRead, handler := handler } :=
  ⟨rfl, rfl, rfl, rfl, rfl, rfl, fun _ => rfl, [], by simp⟩

theorem SchedulerRests.refl : SchedulerRests s s := schedulerRests_platform _ _ _ _ _ _

theorem schedulerRests_timerTick : SchedulerRests s (timerTick s) := by
  rw [timerTick_eq]
  exact ⟨rfl, rfl, rfl, rfl, rfl, rfl, fun _ => rfl, _, rfl, by simp, by simp⟩

theorem schedulerRests_clearSignal (hl : Live s) : SchedulerRests s (clearSignal s) :=
  ⟨rfl, rfl, rfl, rfl, rfl, rfl, absurd hl, [.cleared], rfl, rfl, rfl⟩

theorem schedulerRests_returnBit (b : Bool) : SchedulerRests s (returnBit b s) :=
  ⟨rfl, rfl, rfl, rfl, rfl, rfl, fun _ => rfl, [.read b], rfl, rfl, rfl⟩

theorem schedulerRests_readClear (b : Bool) (hl : Live s) : SchedulerRests s (clearSignal (returnBit b s)) :=
  ⟨rfl, rfl, rfl, rfl, rfl, rfl, absurd hl, [.read b, .cleared], by simp, rfl, rfl⟩

/-- The fault of a rejected word has a code (R66, R131). -/
theorem rejectCode_ne_noFault (r : Reject) : rejectCode r ≠ .noFault := by cases r <;> decide

/-- What a command does to the scheduler, presented or dispatched; an ARM has been presented. -/
theorem Effect.schedulerMove {i : Instr} {xs : List Input} (he : Effect s i t) (hl : Live s)
    (harm : ∀ now lead, i = .arm now lead → HeadPresentsArm xs) : SchedulerMove xs s t := by
  cases he with
  | nop => exact .rest .refl
  | arm now lead hf hi => exact .arm now lead (harm now lead rfl) hf hi
  | armTwice now lead hf => exact .fault _ _ hl (by decide)
  | armIrqEnabled now lead hf hi => exact .fault _ _ hl (by decide)
  | edge c l v hf hc hlast hv => exact .edge c l v hf hc hlast hv
  | edgeUnarmed h => exact .fault _ _ hl (by decide)
  | sigclr => exact .rest (schedulerRests_clearSignal hl)
  | sigrd => exact .rest (schedulerRests_returnBit _)
  | sigrc => exact .rest (schedulerRests_readClear _ hl)

theorem Change.schedulerMove {x : Input} (hx : Change s x t) (more : List Input) : SchedulerMove (x :: more) s t := by
  cases hx with
  | idle p hr hv => exact .rest .refl
  | reset p hr => exact .reset ⟨p, more, rfl, hr⟩
  | command p i t hr hv hd hl he =>
    refine he.schedulerMove hl fun now lead harm => ⟨p, more, rfl, hr, hv, ?_⟩
    rw [cmd_of_decode hd, harm]
    rfl
  | reject p r hr hv hd hl => exact .fault _ _ hl (rejectCode_ne_noFault r)
  | tick => exact .rest schedulerRests_timerTick
  | dispatch t hen hl he => exact he.schedulerMove hl (by simp)
  | noDispatch hen => exact .rest .refl
  | setIe on => exact .rest (schedulerRests_platform _ _ _ _ _ _)
  | enableToggle => exact .rest (schedulerRests_platform _ _ _ _ _ _)
  | installHandler => exact .rest (schedulerRests_platform _ _ _ _ _ _)
  | ackMatchFlag => exact .rest (schedulerRests_platform _ _ _ _ _ _)
  | readCounter => exact .rest (schedulerRests_platform _ _ _ _ _ _)
  | handler d => exact .rest (schedulerRests_platform _ _ _ _ _ _)

/-- Every step moves the scheduler in one of the five ways, once the schedule's head is taken off. -/
theorem step_move (h : step s = .next t) : ∃ rest, SchedulerMove s.inputs (beginCycle rest s) t := by
  obtain ⟨-, ⟨-, rfl⟩ | ⟨x, rest, hi, hx⟩⟩ := step_next h
  · exact ⟨[], .rest .refl⟩
  · exact ⟨rest, hi ▸ hx.schedulerMove rest⟩

/-- A step runs on a well-formed configuration only (R134). -/
theorem wf_of_step (h : step s = .next t) : s.cfg.wf = true := (step_next h).1

theorem not_live_of_faulted (hf : s.fsm = .faulted) : ¬ Live s := by simp [Live, hf]

theorem SchedulerMove.cfg_eq {xs : List Input} (h : SchedulerMove xs s t) : t.cfg = s.cfg := by
  cases h with
  | rest h => exact h.cfg
  | reset hxs => rfl
  | fault code w hl hcode => rfl
  | arm now lead hxs hf hi => exact armSteps_cfg s _
  | edge c l v hf hc hl hv => exact edgeSteps_cfg s c l v

/-- A history is appended to, or emptied by a reset (R36, R170). -/
theorem SchedulerMove.hist_append_or_reset {xs : List Input} (h : SchedulerMove xs s t) :
    (∃ e, t.hist = s.hist ++ e) ∨ (t.hist = [] ∧ HeadIsReset xs) := by
  cases h with
  | rest h => obtain ⟨e, he, -⟩ := h.hist; exact .inl ⟨e, he⟩
  | reset hxs => exact .inr ⟨rfl, hxs⟩
  | fault code w hl hcode => exact .inl ⟨_, raiseFault_hist s code w⟩
  | arm now lead hxs hf hi => obtain ⟨e, he, -⟩ := armSteps_hist s _; exact .inl ⟨e, he⟩
  | edge c l v hf hc hl hv => obtain ⟨e, he, -⟩ := edgeSteps_hist s c l v; exact .inl ⟨e, he⟩

/-- In `FAULTED` the block's registers and `CMP` stay, unless it is reset (R24, R130). -/
theorem SchedulerMove.faulted_stays_or_reset {xs : List Input} (h : SchedulerMove xs s t) (hs : s.fsm = .faulted) :
    (t.fsm = .faulted ∧ t.fault = s.fault ∧ t.cursor = s.cursor ∧ t.last = s.last ∧ t.pend = s.pend ∧ t.cmp = s.cmp)
      ∨ (t.fsm = .unarmed ∧ t.fault = .noFault ∧ HeadIsReset xs) := by
  cases h with
  | rest h =>
    exact .inl ⟨h.fsm.trans hs, h.fault, h.cursor, h.last, h.pend (not_live_of_faulted hs), h.cmp⟩
  | reset hxs => exact .inr ⟨rfl, rfl, hxs⟩
  | fault code w hl hcode => exact absurd hl (not_live_of_faulted hs)
  | arm now lead hxs hf hi => rw [hs] at hf; cases hf
  | edge c l v hf hc hl hv => rw [hs] at hf; cases hf

/-- The transitions of `FSM` between steps (R24). -/
theorem SchedulerMove.fsm_transition {xs : List Input} (h : SchedulerMove xs s t) (hne : t.fsm ≠ s.fsm) :
    (t.fsm = .unarmed ∧ HeadIsReset xs) ∨ (s.fsm = .unarmed ∧ t.fsm = .armed ∧ HeadPresentsArm xs)
      ∨ (s.fsm ≠ .faulted ∧ t.fsm = .faulted) := by
  cases h with
  | rest h => exact absurd h.fsm hne
  | reset hxs => exact .inl ⟨rfl, hxs⟩
  | fault code w hl hcode => exact .inr (.inr ⟨fun hs => not_live_of_faulted hs hl, rfl⟩)
  | arm now lead hxs hf hi => exact .inr (.inl ⟨hf, armSteps_fsm s _, hxs⟩)
  | edge c l v hf hc hl hv => exact absurd ((edgeSteps_fsm s c l v).trans hf.symm) hne

/-! The register invariant (R25, R27). -/

/-- Of a faulted block nothing more is asked. -/
theorem registerInv_of_faulted (hs : s.fsm = .faulted) : RegisterInv s := by simp [RegisterInv, hs]

theorem registerInv_unarmed (hf : s.fsm = .unarmed) (hc : s.cursor = none) (hl : s.last = none)
    (hh : cmpWrites s.hist = []) : RegisterInv s := by
  simp [RegisterInv, hf, hc, hl, hh]

/-- Armed, with `l` in `LAST` and `CMP` by the last compare write of the history. -/
theorem registerInv_armed {c l : Nat} {h e : List Event} (hf : s.fsm = .armed) (hc : s.cursor = some c)
    (hlt : c < s.cfg.tableLen) (hl : s.last = some l) (hm : s.cmp = l) (hhist : s.hist = h ++ e)
    (hcw : cmpWrites e = [l]) : RegisterInv s := by
  refine ⟨by simp [hf], fun _ => ⟨c, l, hc, hlt, hl, ?_, hm⟩, by simp [hf]⟩
  rw [hhist, cmpWrites_append, hcw, List.getLast?_concat]

theorem SchedulerRests.registerInv (h : SchedulerRests s t) (hs : RegisterInv s) : RegisterInv t := by
  obtain ⟨e, hhist, hcw, -⟩ := h.hist
  rw [RegisterInv, h.cfg, h.fsm, h.cursor, h.last, h.cmp, hhist, cmpWrites_append, hcw, List.append_nil]
  exact hs

theorem SchedulerMove.registerInv {xs : List Input} (h : SchedulerMove xs s t) (hw : s.cfg.wf = true)
    (hs : RegisterInv s) : RegisterInv t := by
  have hN := wf_tableLen_pos hw
  cases h with
  | rest h => exact h.registerInv hs
  | reset hxs => exact registerInv_unarmed rfl rfl rfl rfl
  | fault code w hl hcode => exact registerInv_of_faulted rfl
  | arm now lead hxs hf hi =>
    obtain ⟨e, hhist, hcw, -⟩ := armSteps_hist s _
    exact registerInv_armed (armSteps_fsm s _) (armSteps_cursor s _) (by rwa [armSteps_cfg]) (armSteps_last s _)
      (armSteps_cmp s _) hhist hcw
  | edge c l v hf hc hl hv =>
    obtain ⟨e, hhist, hcw, -⟩ := edgeSteps_hist s c l v
    exact registerInv_armed (edgeSteps_fsm s c l v) (edgeSteps_cursor s c l v)
      (by rw [edgeSteps_cfg]; exact nextCursor_lt hN c) (edgeSteps_last s c l v) (edgeSteps_cmp s c l v) hhist hcw

/-! The fault invariant (R26, R130). -/

theorem faultInv_transfer (hfault : t.fault = s.fault) (hfsm : t.fsm = .faulted ↔ s.fsm = .faulted)
    (hhist : ∃ e, t.hist = s.hist ++ e ∧ faultCodes e = []) (hs : FaultInv s) : FaultInv t := by
  obtain ⟨e, he, hcodes⟩ := hhist
  rw [FaultInv, hfsm, hfault, he, faultCodes_append, hcodes, List.append_nil]
  exact hs

/-- A live block has taken no fault. -/
theorem FaultInv.of_live (hs : FaultInv s) (hl : Live s) : s.fault = .noFault ∧ faultCodes s.hist = [] := by
  obtain ⟨hiff, hcodes⟩ := hs
  have hnone : s.fault = .noFault := by
    by_contra hne
    exact not_live_of_faulted (hiff.2 hne) hl
  exact ⟨hnone, by rw [hcodes, if_pos hnone]⟩

/-- The one fault a live block takes (R130). -/
theorem faultInv_raiseFault {code : FaultCode} (w : BitVec 8) (hs : FaultInv s) (hl : Live s)
    (hcode : code ≠ .noFault) : FaultInv (raiseFault code w s) := by
  obtain ⟨-, hcodes⟩ := hs.of_live hl
  simp [FaultInv, hcode, hcodes]

theorem SchedulerMove.faultInv {xs : List Input} (h : SchedulerMove xs s t) (hs : FaultInv s) : FaultInv t := by
  cases h with
  | rest h =>
    obtain ⟨e, hhist, -, hcodes⟩ := h.hist
    exact faultInv_transfer h.fault (by rw [h.fsm]) ⟨e, hhist, hcodes⟩ hs
  | reset hxs => simp [FaultInv]
  | fault code w hl hcode => exact faultInv_raiseFault w hs hl hcode
  | arm now lead hxs hf hi =>
    obtain ⟨e, hhist, -, hcodes⟩ := armSteps_hist s _
    exact faultInv_transfer (by simp) (by simp [hf]) ⟨e, hhist, hcodes⟩ hs
  | edge c l v hf hc hl hv =>
    obtain ⟨e, hhist, -, hcodes⟩ := edgeSteps_hist s c l v
    exact faultInv_transfer (by simp) (by simp [hf]) ⟨e, hhist, hcodes⟩ hs

end

/-! The launch (R35, R171). -/

section
variable (cfg : Config) (l : Launch)

theorem registerInv_launch : RegisterInv (State.launch cfg l) := registerInv_unarmed rfl rfl rfl rfl

theorem faultInv_launch : FaultInv (State.launch cfg l) := by simp [FaultInv, State.launch]

theorem signalInv_launch : SignalInv (State.launch cfg l) := by
  simp [SignalInv, State.launch, not_signalledSinceClear_nil]

theorem scheduleInv_launch : ScheduleInv (State.launch cfg l) := by simp [ScheduleInv, State.launch]

end

/-- The presumed launch values of this hardware are words of its presumed width (logs 1 and 5). -/
theorem launch_family_wf : Launch.family.wf Config.hardware = true := by decide

/-! The statements. -/

/-- Settles O45: an armed block got `CURSOR`, `LAST` and `CMP` from the last compare write, ARM's or EDGE's; no other
move but a reset or a fault touches them. -/
theorem stepKeepsRegisterInvariant : Obligations.StepKeepsRegisterInvariant := by
  refine ⟨registerInv_launch, fun s t hs hst => ?_⟩
  have hw := wf_of_step hst
  obtain ⟨rest, hmove⟩ := step_move hst
  exact hmove.registerInv hw hs

/-- Settles O46: only a live block takes a fault, and by the invariant it has taken none before. -/
theorem stepKeepsFaultInvariant : Obligations.StepKeepsFaultInvariant := by
  intro s t hs hst
  obtain ⟨rest, hmove⟩ := step_move hst
  exact hmove.faultInv hs

/-- Settles O39: no move of the scheduler writes the configuration. -/
theorem tableNeverChanges : Obligations.TableNeverChanges := by
  intro s t hst
  obtain ⟨rest, hmove⟩ := step_move hst
  exact hmove.cfg_eq

/-- Settles O40: every move but the reset appends its events. -/
theorem historyIsAppendOnly : Obligations.HistoryIsAppendOnly := by
  intro s t hst
  obtain ⟨rest, hmove⟩ := step_move hst
  exact hmove.hist_append_or_reset

/-- Settles O43: in `FAULTED` no command has a step, so the scheduler rests or is reset. -/
theorem onlyResetLeavesFaulted : Obligations.OnlyResetLeavesFaulted := by
  intro s t hst hs
  obtain ⟨rest, hmove⟩ := step_move hst
  exact hmove.faulted_stays_or_reset hs

/-- Settles O44: the moves of the scheduler that change `FSM`, and the encodings as the model writes them. -/
theorem fsmTransitions : Obligations.FsmTransitions := by
  refine ⟨fun s t hst _ hne => ?_, rfl, rfl, rfl, rfl, rfl, rfl, rfl, rfl, rfl, rfl, fun s => ⟨rfl, rfl⟩⟩
  obtain ⟨rest, hmove⟩ := step_move hst
  exact hmove.fsm_transition hne

/-- Settles O1: the fields of `State.launch` and of `resetBlock`, read off their definitions. -/
theorem resetValues : Obligations.ResetValues := by
  refine ⟨fun cfg l => ?_, fun s => rfl⟩
  simp [State.launch, State.fsmPort, State.faultPort, Fsm.bits, FaultCode.bits]

/-- Settles O3: a launch is unarmed, without a fault, a signal or a compare write; `State.reset` is the launch of this
hardware. -/
theorem launchMeetsInvariants : Obligations.LaunchMeetsInvariants :=
  ⟨fun cfg l => ⟨registerInv_launch cfg l, faultInv_launch cfg l, signalInv_launch cfg l, scheduleInv_launch cfg l,
      wordInv_launch⟩,
    registerInv_launch _ _, faultInv_launch _ _, signalInv_launch _ _, scheduleInv_launch _ _,
    wordInv_launch launch_family_wf⟩

/-- Settles O38: each call is the one transaction the step runs. -/
theorem platformCalls : Obligations.PlatformCalls := by
  intro s rest hw
  exact ⟨fun _ hi => step_cons hw hi, step_cons hw, step_cons hw, step_cons hw, step_cons hw,
    fun _ hi => step_cons hw hi⟩

end Sys2Proof.Machine
end

section
/-! SUPPORT and proofs for the family of spec/20_memory.md: the signal that crosses the two contexts (R58), that every
command completes (R57), and which command may write which register (R47). -/

namespace Sys2Proof.Machine

/-! The signal invariant (R58). First what a state must be for it to hold there: nothing of the signal has happened
since a state that meets it, or the last event signals, or it clears. -/

section
variable {s t : State}

/-- Events that neither signal nor clear keep the invariant, unless `FSM` comes to be `UNARMED` or `TRIGGERING`. -/
theorem signalInv_of_quiet (hs : SignalInv s) (hfsm : t.fsm ≠ .triggering)
    (hun : t.fsm = .unarmed → s.fsm = .unarmed) (hpend : t.pend = s.pend) {e : List Event} (hhist : t.hist = s.hist ++ e)
    (he : ∀ x ∈ e, x ≠ .signalled ∧ x ≠ .cleared) : SignalInv t := by
  obtain ⟨-, hiff, hzero⟩ := hs
  rw [SignalInv, hpend, hhist, signalledSinceClear_append _ _ he]
  exact ⟨hfsm, hiff, fun h => hzero (hun h)⟩

/-- EDGE's last two writes make the invariant whatever stood before (R93). -/
theorem signalInv_signal : SignalInv (toFsm .armed (signal s)) := by
  simp [SignalInv, signalledSinceClear_signalled]

/-- A clear makes it wherever a command has a step (R110, R114). -/
theorem signalInv_clearSignal (hs : s.fsm ≠ .triggering) : SignalInv (clearSignal s) := by
  simp [SignalInv, not_signalledSinceClear_cleared, hs]

theorem signalInv_resetBlock : SignalInv (resetBlock s) := by
  simp [SignalInv, not_signalledSinceClear_nil]

/-! Then the operations that leave the signal alone. -/

theorem signalInv_afterMatches (m : Nat) (hs : SignalInv s) : SignalInv (afterMatches m s) :=
  signalInv_of_quiet hs hs.1 id rfl rfl (matchTrace_neutral _ _ _)

theorem signalInv_returnBit (b : Bool) (hs : SignalInv s) : SignalInv (returnBit b s) :=
  signalInv_of_quiet hs hs.1 id rfl (returnBit_hist s b) (by simp)

theorem signalInv_raiseFault (code : FaultCode) (w : BitVec 8) (hs : SignalInv s) : SignalInv (raiseFault code w s) :=
  signalInv_of_quiet hs (by simp) (by simp) rfl (raiseFault_hist s code w) (by simp)

theorem signalInv_timerTick (hs : SignalInv s) : SignalInv (timerTick s) := by
  rw [timerTick_eq]
  exact signalInv_afterMatches _ hs

theorem signalInv_cmpWrite (v : Nat) (hs : SignalInv s) : SignalInv (cmpWrite v s) := by
  rw [cmpWrite_eq]
  exact signalInv_afterMatches _ (signalInv_of_quiet hs hs.1 id rfl rfl (by simp))

theorem signalInv_armSteps (v : Nat) (hs : SignalInv s) : SignalInv (armSteps v s) :=
  signalInv_of_quiet (signalInv_cmpWrite v hs) (by simp) (by simp) rfl (List.append_nil _).symm (by simp)

/-! What a command, a transaction and a step keep. -/

theorem Effect.signalInv {i : Instr} (he : Effect s i t) (hs : SignalInv s) : SignalInv t := by
  cases he with
  | nop => exact hs
  | arm now lead hf hi => exact signalInv_armSteps _ hs
  | armTwice now lead hf => exact signalInv_raiseFault _ _ hs
  | armIrqEnabled now lead hf hi => exact signalInv_raiseFault _ _ hs
  | edge c l v hf hc hl hv => exact signalInv_signal
  | edgeUnarmed h => exact signalInv_raiseFault _ _ hs
  | sigclr => exact signalInv_clearSignal hs.1
  | sigrd => exact signalInv_returnBit _ hs
  | sigrc => exact signalInv_clearSignal hs.1

theorem Change.signalInv {x : Input} (hx : Change s x t) (hs : SignalInv s) : SignalInv t := by
  cases hx with
  | idle p hr hv => exact hs
  | reset p hr => exact signalInv_resetBlock
  | command p i t hr hv hd hl he => exact he.signalInv hs
  | reject p r hr hv hd hl => exact signalInv_raiseFault _ _ hs
  | tick => exact signalInv_timerTick hs
  | dispatch t hen hl he => exact he.signalInv hs
  | noDispatch hen => exact hs
  | setIe on => exact hs
  | enableToggle => exact hs
  | installHandler => exact hs
  | ackMatchFlag => exact hs
  | readCounter => exact hs
  | handler d => exact hs

/-- The start of a cycle touches the schedule and the outputs only, so it keeps the invariant as it stands. -/
theorem step_keeps_signalInv (hs : SignalInv s) (hst : step s = .next t) : SignalInv t := by
  obtain ⟨-, ⟨-, rfl⟩ | ⟨x, rest, -, hx⟩⟩ := step_next hst
  · exact hs
  · exact hx.signalInv hs

end

/-- Settles O47: by the cases of what one transaction can do; only EDGE signals and only SIGCLR and SIGRC clear, each
as it writes `PEND`, and a reset empties both. -/
theorem stepKeepsSignalInvariant : Obligations.StepKeepsSignalInvariant :=
  ⟨signalInv_launch, fun _ _ hs hst => step_keeps_signalInv hs hst⟩

/-! Completion (R57). -/

section
variable {s t : State}

/-- Each check of ARM that fails answers a fault of the block, so a next state (R90). -/
theorem exec_arm_completes (now lead : Nat) (hl : Live s) : ∃ t, exec (.arm now lead) s = .next t := by
  rcases hl with hf | hf
  · cases hi : s.ie with
    | false => exact ⟨_, exec_arm_arms now lead hf hi⟩
    | true => exact ⟨_, exec_arm_ie now lead hf hi⟩
  · exact ⟨_, exec_arm_twice now lead hf⟩

/-- An armed block's cursor stands in the table (R27), so its EDGE reads an entry. -/
theorem exec_edge_completes (hw : s.cfg.wf = true) (hs : RegisterInv s) (hl : Live s) :
    ∃ t, exec .edge s = .next t := by
  rcases hl with hf | hf
  · exact ⟨_, exec_edge_unarmed (.inl hf) (.inl hf)⟩
  · obtain ⟨-, harmed, -⟩ := hs
    obtain ⟨c, l, hc, hlt, hlast, -⟩ := harmed hf
    exact ⟨_, exec_edge_runs hf hc hlast (valueAt_wf hw hlt)⟩

theorem exec_completes (i : Instr) (hw : s.cfg.wf = true) (hs : RegisterInv s) (hl : Live s) :
    ∃ t, exec i s = .next t := by
  cases i with
  | nop => exact ⟨_, exec_nop hl⟩
  | arm now lead => exact exec_arm_completes now lead hl
  | edge => exact exec_edge_completes hw hs hl
  | sigclr => exact ⟨_, exec_sigclr hl⟩
  | sigrd => exact ⟨_, exec_sigrd hl⟩
  | sigrc => exact ⟨_, exec_sigrc hl⟩

/-- Where a command leaves `FSM` (R24). -/
theorem Effect.fsm_cases {i : Instr} (he : Effect s i t) :
    t.fsm = s.fsm ∨ t.fsm = .faulted ∨ (s.fsm = .unarmed ∧ ∃ now lead, i = .arm now lead) := by
  cases he with
  | nop => exact .inl rfl
  | arm now lead hf hi => exact .inr (.inr ⟨hf, now, lead, rfl⟩)
  | armTwice now lead hf => exact .inr (.inl rfl)
  | armIrqEnabled now lead hf hi => exact .inr (.inl rfl)
  | edge c l v hf hc hl hv => exact .inl hf.symm
  | edgeUnarmed h => exact .inr (.inl rfl)
  | sigclr => exact .inl rfl
  | sigrd => exact .inl rfl
  | sigrc => exact .inl rfl

end

/-- Settles O23: each command's checks end in a fault or in its effect, and the one stop left, EDGE beyond the table,
is shut out by the register invariant. -/
theorem everyCommandCompletes : Obligations.EveryCommandCompletes := by
  intro s i hw hs hl
  obtain ⟨t, ht⟩ := exec_completes i hw hs hl
  exact ⟨t, ht, (exec_next_iff.1 ht).2.fsm_cases⟩

/-! The frame (R47). What ARM and EDGE leave in the other registers; the scheduler's own stand with the family of
spec/10_state.md. -/

section
variable (s : State) (t : Nat)

@[simp] theorem armSteps_pend : (armSteps t s).pend = s.pend := by rw [armSteps_eq]
@[simp] theorem armSteps_tcnt : (armSteps t s).tcnt = s.tcnt := by rw [armSteps_eq]
@[simp] theorem armSteps_ie : (armSteps t s).ie = s.ie := by rw [armSteps_eq]
@[simp] theorem armSteps_srcEn : (armSteps t s).srcEn = s.srcEn := by rw [armSteps_eq]
@[simp] theorem armSteps_toggleEn : (armSteps t s).toggleEn = s.toggleEn := by rw [armSteps_eq]
@[simp] theorem armSteps_out : (armSteps t s).out = { s.out with cmpWr := some t } := by rw [armSteps_eq]
@[simp] theorem armSteps_counterRead : (armSteps t s).counterRead = s.counterRead := by rw [armSteps_eq]
@[simp] theorem armSteps_handler : (armSteps t s).handler = s.handler := by rw [armSteps_eq]
@[simp] theorem armSteps_inputs : (armSteps t s).inputs = s.inputs := by rw [armSteps_eq]

variable {s t}

/-- A compare write matches at once only where `MATCH_ON_WRITE` is true (R153). -/
theorem matchOnWrite_of_matchesOnWrite (h : matchesOnWrite t s = true) : s.cfg.matchOnWrite = true :=
  (Bool.and_eq_true_iff.1 h).1

theorem matchOnWrite_of_armSteps_mf (h : (armSteps t s).mf ≠ s.mf) : s.cfg.matchOnWrite = true := by
  refine matchOnWrite_of_matchesOnWrite (t := t) ?_
  by_contra hm
  rw [Bool.not_eq_true] at hm
  simp [armSteps_eq, hm] at h

theorem of_armSteps_pin (h : (armSteps t s).pin ≠ s.pin) : s.toggleEn = true ∧ s.cfg.matchOnWrite = true := by
  suffices hb : (matchesOnWrite t s && s.toggleEn) = true by
    obtain ⟨hm, he⟩ := Bool.and_eq_true_iff.1 hb
    exact ⟨he, matchOnWrite_of_matchesOnWrite hm⟩
  by_contra hb
  rw [Bool.not_eq_true] at hb
  simp [armSteps_eq, hb] at h

end

section
variable (s : State) (c l v : Nat)

@[simp] theorem edgeSteps_ie : (edgeSteps c l v s).ie = s.ie := by rw [edgeSteps_eq]
@[simp] theorem edgeSteps_srcEn : (edgeSteps c l v s).srcEn = s.srcEn := by rw [edgeSteps_eq]
@[simp] theorem edgeSteps_toggleEn : (edgeSteps c l v s).toggleEn = s.toggleEn := by rw [edgeSteps_eq]
@[simp] theorem edgeSteps_out :
    (edgeSteps c l v s).out = { s.out with ack := true, cmpWr := some (reArmAdd s.cfg l v) } := by rw [edgeSteps_eq]
@[simp] theorem edgeSteps_counterRead : (edgeSteps c l v s).counterRead = s.counterRead := by rw [edgeSteps_eq]
@[simp] theorem edgeSteps_handler : (edgeSteps c l v s).handler = s.handler := by rw [edgeSteps_eq]
@[simp] theorem edgeSteps_inputs : (edgeSteps c l v s).inputs = s.inputs := by rw [edgeSteps_eq]

variable {s c l v}

/-- The counter moves inside an EDGE only while the handler takes ticks (R143, log 21). -/
theorem handler_ne_of_edgeSteps_tcnt (h : (edgeSteps c l v s).tcnt ≠ s.tcnt) : s.handler ≠ ⟨0, 0⟩ := by
  intro hz
  simp [edgeSteps_eq, tcntAtWrite, hz, countAfter] at h

theorem toggleEn_of_edgeSteps_pin (h : (edgeSteps c l v s).pin ≠ s.pin) : s.toggleEn = true := by
  by_contra he
  rw [Bool.not_eq_true] at he
  simp [edgeSteps_eq, pinAfter, he] at h

end

/-- Settles O24: by the effects of the commands, each with the registers its own field lemmas say it leaves. -/
theorem commandFrame : Obligations.CommandFrame := by
  intro s t i h
  obtain ⟨-, he⟩ := exec_next_iff.1 h
  cases he with
  | nop => simp
  | arm now lead hf hi =>
    obtain ⟨e, hhist, -⟩ := armSteps_hist s (reArmAdd s.cfg now lead)
    simpa [hhist] using ⟨matchOnWrite_of_armSteps_mf, of_armSteps_pin⟩
  | armTwice now lead hf => simp
  | armIrqEnabled now lead hf hi => simp
  | edge c l v hf hc hl hv =>
    obtain ⟨e, hhist, -⟩ := edgeSteps_hist s c l v
    simpa [hhist] using ⟨handler_ne_of_edgeSteps_tcnt, toggleEn_of_edgeSteps_pin⟩
  | edgeUnarmed h => simp
  | sigclr => simp
  | sigrd => simp
  | sigrc => simp

end Sys2Proof.Machine
end

section
/-! SUPPORT and proofs for the family of spec/30_encoding.md: the verdict on every presented word (R66), the encoding of
the commands (R62, R63), what a presented word makes of a step, the read data (R64), and the assembler (R70, R71). -/

namespace Sys2Proof.Machine

/-! The words of the commands (R62) and their operands (R63). -/

/-- The command `i` with its operands taken from the ports of `c`: the low `w` bits of both for ARM, none for the other
five. -/
def withOperands (w : Nat) (c : Command) : Instr → Instr
  | .nop => .nop
  | .arm _ _ => .arm (lowBits w c.opa) (lowBits w c.opb)
  | .edge => .edge
  | .sigclr => .sigclr
  | .sigrd => .sigrd
  | .sigrc => .sigrc

theorem withOperands_eq_self_iff (w : Nat) (c : Command) (i : Instr) :
    withOperands w c i = i ↔ ∀ now lead, i = .arm now lead → c.opa % 2 ^ w = now ∧ c.opb % 2 ^ w = lead := by
  cases i <;> simp [withOperands, lowBits]

theorem encode_cmd (i : Instr) : (encode i).cmd = i.word := by cases i <;> rfl

/-- A command's own word decodes to it, with what stands on the operand ports: each of the six words, its fields
evaluated, passes both checks of R66. -/
theorem decode_of_cmd {w : Nat} {c : Command} {i : Instr} (h : c.cmd = i.word) :
    decode w c = .command (withOperands w c i) := by
  cases i <;> simp [decode, selectCommand, h, Instr.word, rsvField, opField, ctxField, withOperands]

/-- A transaction is a command exactly when it presents that command's word and operands. -/
theorem decode_eq_command_iff {w : Nat} {c : Command} {i : Instr} :
    decode w c = .command i ↔ c.cmd = i.word ∧ withOperands w c i = i := by
  constructor
  · intro h
    have hcmd := cmd_of_decode h
    rw [decode_of_cmd hcmd, Verdict.command.injEq] at h
    exact ⟨hcmd, h⟩
  · rintro ⟨hcmd, hops⟩
    rw [decode_of_cmd hcmd, hops]

/-- A well-formed command presents its operands whole: none is wider than the port bits ARM takes (R63). -/
theorem withOperands_encode {w : Nat} {i : Instr} (h : i.wf w = true) : withOperands w (encode i) i = i := by
  rw [withOperands_eq_self_iff]
  rintro now lead rfl
  simp only [Instr.wf, Bool.and_eq_true, decide_eq_true_eq] at h
  exact ⟨Nat.mod_eq_of_lt h.1, Nat.mod_eq_of_lt h.2⟩

/-- Settles O9: only a command's own word decodes to it, and that word does so with the operands on the ports. -/
theorem decodeEncodeAgree : Obligations.DecodeEncodeAgree := by
  refine ⟨fun w i h => decode_eq_command_iff.2 ⟨encode_cmd i, withOperands_encode h⟩, fun w c i => ?_⟩
  rw [decode_eq_command_iff, withOperands_eq_self_iff, encode_cmd]

/-- Settles O10: each of the six is the word of its command. -/
theorem wordsOfTheTable : Obligations.WordsOfTheTable :=
  ⟨decode_of_cmd (i := .nop) rfl, decode_of_cmd (i := .arm 7 9) rfl, decode_of_cmd (i := .edge) rfl,
    decode_of_cmd (i := .sigclr) rfl, decode_of_cmd (i := .sigrd) rfl, decode_of_cmd (i := .sigrc) rfl⟩

/-! The verdicts (R66), first by the fields of the word, then by its arithmetic. -/

theorem rsvField_ne_zero_iff (a : BitVec 8) : rsvField a ≠ 0 ↔ a.toNat / 16 % 8 ≠ 0 := by
  rw [Ne, ← BitVec.toNat_inj, rsvField, BitVec.extractLsb'_toNat, Nat.shiftRight_eq_div_pow]
  rfl

theorem opField_toNat (a : BitVec 8) : (opField a).toNat = a.toNat % 16 := by
  rw [opField, BitVec.extractLsb'_toNat, Nat.shiftRight_zero]

theorem ctxField_eq_decide (a : BitVec 8) : ctxField a = decide (a.toNat / 128 = 1) := by
  rw [ctxField, BitVec.getLsbD, Nat.testBit_eq_decide_div_mod_eq, decide_eq_decide]
  have := a.isLt
  omega

/-- `RSV` is not 000 or `OP` is none of the six commands' (R66 step 1). -/
abbrev ReservedWord (a : BitVec 8) : Prop := a.toNat / 16 % 8 ≠ 0 ∨ 6 ≤ a.toNat % 16

/-- `CTX` is the wrong one for the word's `OP`: 0 for EDGE's, 1 for another (R66 step 2). -/
abbrev ContextWrong (a : BitVec 8) : Prop :=
  (a.toNat % 16 = 2 ∧ a.toNat / 128 = 0) ∨ (a.toNat % 16 ≠ 2 ∧ a.toNat / 128 = 1)

theorem not_reservedWord_iff (a : BitVec 8) : ¬ ReservedWord a ↔ a.toNat / 16 % 8 = 0 ∧ a.toNat % 16 < 6 := by
  omega

theorem contextWrong_iff (a : BitVec 8) : ((opField a == 2) != ctxField a) = true ↔ ContextWrong a := by
  have hop : (opField a == 2) = decide (a.toNat % 16 = 2) := by
    rw [Bool.eq_iff_iff, beq_iff_eq, decide_eq_true_eq, ← opField_toNat, ← BitVec.toNat_inj]
    rfl
  rw [hop, ctxField_eq_decide, bne_iff_ne, Ne, decide_eq_decide]
  have := a.isLt
  omega

/-- The checks of R66 in their order, by the arithmetic of the word. -/
theorem decode_eq (w : Nat) (c : Command) :
    decode w c =
      if ReservedWord c.cmd then .reject .reservedCmd
      else if ContextWrong c.cmd then .reject .context
      else selectCommand w c := by
  simp only [decode, rsvField_ne_zero_iff, opField_toNat, contextWrong_iff]

/-- Every `OP` below 6 selects a command. -/
theorem selectCommand_of_not_reserved (w : Nat) {c : Command} (h : ¬ ReservedWord c.cmd) :
    ∃ i, selectCommand w c = .command i := by
  obtain ⟨-, hop⟩ := (not_reservedWord_iff c.cmd).1 h
  rw [selectCommand, opField_toNat]
  generalize c.cmd.toNat % 16 = op at hop
  interval_cases op <;> exact ⟨_, rfl⟩

theorem decode_eq_reservedCmd_iff (w : Nat) (c : Command) :
    decode w c = .reject .reservedCmd ↔ ReservedWord c.cmd := by
  rw [decode_eq]
  split_ifs with hreserved hcontext
  · exact iff_of_true rfl hreserved
  · exact iff_of_false (by simp) hreserved
  · obtain ⟨i, hi⟩ := selectCommand_of_not_reserved w hreserved
    exact iff_of_false (by simp [hi]) hreserved

theorem decode_eq_context_iff (w : Nat) (c : Command) :
    decode w c = .reject .context ↔ ¬ ReservedWord c.cmd ∧ ContextWrong c.cmd := by
  rw [decode_eq]
  split_ifs with hreserved hcontext
  · exact iff_of_false (by simp) fun h => h.1 hreserved
  · exact iff_of_true rfl ⟨hreserved, hcontext⟩
  · obtain ⟨i, hi⟩ := selectCommand_of_not_reserved w hreserved
    exact iff_of_false (by simp [hi]) fun h => hcontext h.2

/-- Five of the commands carry nothing: their word is all of them. -/
theorem decode_eq_plain_iff {w : Nat} {c : Command} {i : Instr} (hi : ∀ now lead, i ≠ .arm now lead) :
    decode w c = .command i ↔ c.cmd.toNat = i.word.toNat := by
  rw [decode_eq_command_iff, withOperands_eq_self_iff, BitVec.toNat_inj]
  exact and_iff_left fun now lead h => absurd h (hi now lead)

theorem decode_eq_arm_iff {w now lead : Nat} {c : Command} :
    decode w c = .command (.arm now lead) ↔ c.cmd.toNat = 1 ∧ c.opa % 2 ^ w = now ∧ c.opb % 2 ^ w = lead := by
  rw [decode_eq_command_iff, ← BitVec.toNat_inj]
  simp [withOperands, lowBits, Instr.word]

/-! What a presented word does (R66, R68, R130). -/

section
variable {s : State} {c : Command}

theorem runCommand_command {i : Instr} (hd : decode s.cfg.regWidth c = .command i) :
    runCommand c s = exec i s := by
  simp [runCommand, hd]

theorem runCommand_reject {r : Reject} (hd : decode s.cfg.regWidth c = .reject r) (hl : Live s) :
    runCommand c s = .next (raiseFault (rejectCode r) c.cmd s) := by
  simp [runCommand, hd, whenLive_live _ hl]

/-- A cycle with a command and no reset is that command's transaction (R60). -/
theorem step_command_cycle {p : PortCycle} {rest : List Input} (hw : s.cfg.wf = true)
    (hi : s.inputs = .cycle p :: rest) (hr : p.rst = false) (hv : p.cmdValid = true) :
    step s = runCommand p.command (beginCycle rest s) := by
  rw [step_cons hw hi]
  simp [runInput, runCycle, hr, hv]

end

/-- Settles O7: the verdicts by the arithmetic of the word, and what `runCommand` makes of each. -/
theorem decodeVerdicts : Obligations.DecodeVerdicts := by
  intro w c
  refine ⟨decode_eq_reservedCmd_iff w c, ?_, decode_eq_plain_iff (by simp),
    fun _ _ => decode_eq_arm_iff, decode_eq_plain_iff (by simp), decode_eq_plain_iff (by simp),
    decode_eq_plain_iff (by simp), decode_eq_plain_iff (by simp), ?_, ?_, ?_⟩
  · rw [decode_eq_context_iff, not_reservedWord_iff]
  · rintro s rfl hl hd
    exact runCommand_reject hd hl
  · rintro s rfl hl hd
    exact runCommand_reject hd hl
  · rintro s i rfl hd
    exact runCommand_command hd

/-- Settles O34: a rejected word's transaction is its fault. -/
theorem stepFaultsRejectedWord : Obligations.StepFaultsRejectedWord := by
  intro s c rest hw hi hl
  rw [step_command_cycle hw hi rfl rfl]
  have hreject {r : Reject} (hd : decode s.cfg.regWidth c = .reject r) :=
    runCommand_reject (s := beginCycle rest s) hd hl
  exact ⟨hreject, hreject⟩

/-- Settles O33: a decoded command's transaction is that command. -/
theorem stepRunsDecodedCommand : Obligations.StepRunsDecodedCommand := by
  intro s p rest i hw hi hr hv hd _
  rw [step_command_cycle hw hi hr hv]
  exact runCommand_command hd

/-- Settles O35: a cycle with neither a reset nor a command answers the state it starts from. -/
theorem idleCycleChangesNothing : Obligations.IdleCycleChangesNothing := by
  intro s p rest hw hi hr hv
  rw [step_cons hw hi]
  simp [runInput, runCycle, hr, hv, beginCycle, Outputs.idle]

/-! How many words each verdict has (R67). -/

/-- A verdict is one of the two rejections or a command. -/
theorem instr?_isSome (v : Verdict) :
    v.instr?.isSome = (!decide (v = .reject .reservedCmd) && !decide (v = .reject .context)) := by
  rcases v with i | _ | _ <;> simp [Verdict.instr?]

/-- The numbers below `m * n` in `m` blocks of `n`; the words of one high nibble are such a block. -/
theorem range_mul_eq_flatMap (m n : Nat) :
    List.range (m * n) = (List.range m).flatMap fun h => (List.range n).map (h * n + ·) := by
  induction m with
  | zero => simp
  | succ m ih => simp [Nat.succ_mul, List.range_add, List.range_succ, ih]

/-- Settles O8: neither the width nor the operand ports enter the verdicts' arithmetic, and a count over the words by
their high nibbles evaluates it. -/
theorem verdictCounts : Obligations.VerdictCounts := by
  intro width opa opb
  rw [show 256 = 16 * 16 from rfl, range_mul_eq_flatMap]
  simp only [List.countP_flatMap, List.filter_flatMap, instr?_isSome, decode_eq_reservedCmd_iff,
    decode_eq_context_iff, ReservedWord, ContextWrong, BitVec.toNat_ofNat]
  decide

/-! The read data (R64). -/

section
variable {s t : State}

/-- Only the two reads drive `rdata_o`, with `PEND` as it stood. -/
theorem Effect.rdata {i : Instr} (he : Effect s i t) :
    ((i = .sigrd ∨ i = .sigrc) ∧ t.out.rdata = some s.pend) ∨ t.out.rdata = s.out.rdata := by
  cases he with
  | nop => exact .inr rfl
  | arm now lead hf hi => exact .inr (by rw [armSteps_out])
  | armTwice now lead hf => exact .inr rfl
  | armIrqEnabled now lead hf hi => exact .inr rfl
  | edge c l v hf hc hl hv => exact .inr (by rw [edgeSteps_out])
  | edgeUnarmed h => exact .inr rfl
  | sigclr => exact .inr rfl
  | sigrd => exact .inl ⟨.inl rfl, rfl⟩
  | sigrc => exact .inl ⟨.inr rfl, rfl⟩

/-- The input `x` presents the word of SIGRD or SIGRC to the block. -/
def PresentsRead (x : Input) : Prop :=
  ∃ p, x = .cycle p ∧ p.rst = false ∧ p.cmdValid = true ∧ (p.command.cmd = 0x04 ∨ p.command.cmd = 0x05)

theorem Change.rdata {x : Input} (hx : Change s x t) :
    (PresentsRead x ∧ t.out.rdata = some s.pend) ∨ t.out.rdata = s.out.rdata := by
  cases hx with
  | idle p hr hv => exact .inr rfl
  | reset p hr => exact .inr rfl
  | command p i t hr hv hd hl he =>
    refine he.rdata.imp_left fun ⟨hread, ht⟩ => ⟨⟨p, rfl, hr, hv, ?_⟩, ht⟩
    rw [cmd_of_decode hd]
    exact hread.imp (congrArg Instr.word) (congrArg Instr.word)
  | reject p r hr hv hd hl => exact .inr rfl
  | tick => rw [timerTick_eq]; exact .inr rfl
  | dispatch t hen hl he => exact .inr (he.rdata.resolve_left (by simp))
  | noDispatch hen => exact .inr rfl
  | setIe on => exact .inr rfl
  | enableToggle => exact .inr rfl
  | installHandler => exact .inr rfl
  | ackMatchFlag => exact .inr rfl
  | readCounter => exact .inr rfl
  | handler d => exact .inr rfl

/-- The start of a step clears the port, so a value on it after the step is that step's (log 6). -/
theorem rdata_of_step {b : Bool} (hst : step s = .next t) (hb : t.out.rdata = some b) :
    b = s.pend ∧ ∃ x rest, s.inputs = x :: rest ∧ PresentsRead x := by
  obtain ⟨-, ⟨-, rfl⟩ | ⟨x, rest, hi, hx⟩⟩ := step_next hst
  · cases hb
  · obtain ⟨hread, hpend⟩ | hidle := hx.rdata
    · rw [hb, Option.some.injEq] at hpend
      exact ⟨hpend, x, rest, hi, hread⟩
    · rw [hb] at hidle
      cases hidle

/-- A presented read returns `PEND` wherever a command has a step (R112, R114). -/
theorem step_presents_read {c : Command} {rest : List Input} (hw : s.cfg.wf = true) (hl : Live s)
    (hi : s.inputs = present c :: rest) (hc : c.cmd = 0x04 ∨ c.cmd = 0x05) :
    ∃ t, step s = .next t ∧ t.out.rdata = some s.pend := by
  have hl' : Live (beginCycle rest s) := hl
  rcases hc with hc | hc
  · exact ⟨_, (step_present hw hi (decode_of_cmd (i := .sigrd) hc)).trans (exec_sigrd hl'), rfl⟩
  · exact ⟨_, (step_present hw hi (decode_of_cmd (i := .sigrc) hc)).trans (exec_sigrc hl'), rfl⟩

theorem rdataHost_of_rdata {b : Bool} {n : Nat} (hn : 1 ≤ n) (hb : s.out.rdata = some b) :
    ∃ v, s.rdataHost n = some v ∧ v.toNat = if b then 1 else 0 := by
  have hlt : 1 < 2 ^ n := Nat.one_lt_two_pow (by omega)
  refine ⟨(BitVec.ofBool b).setWidth n, by simp [State.rdataHost, hb], ?_⟩
  cases b <;> simp [Nat.mod_eq_of_lt hlt]

end

/-- Settles O41: only SIGRD and SIGRC drive the port, and one bit fits every host's word. -/
theorem readDataOnlyInReads : Obligations.ReadDataOnlyInReads := by
  refine ⟨fun s t b hst hb => ?_, fun _ _ _ hw hl hi hc => step_presents_read hw hl hi hc,
    fun _ _ _ hn hb => rdataHost_of_rdata hn hb⟩
  obtain ⟨hpend, x, rest, hi, p, rfl, hr, hv, hcmd⟩ := rdata_of_step hst hb
  exact ⟨hpend, p, rest, hi, hr, hv, hcmd⟩

/-! The assembler (R70, R71). -/

theorem expand_arm (w now lead : Nat) :
    Asm.expand w (.arm now lead) =
      if now < 2 ^ w ∧ lead < 2 ^ w then some [.once (present (encode (.arm now lead)))] else none := by
  simp [Asm.expand, operandOk]

/-- Settles O59: the expansions as the assembler writes them; only ARM's depends on a check, that of its operands. -/
theorem assemblerExpansions : Obligations.AssemblerExpansions := by
  refine ⟨fun w now lead => ?_, fun w now lead hnow hlead => ?_, fun w => ⟨rfl, rfl, rfl, rfl, rfl⟩,
    fun _ _ _ => rfl⟩
  · rw [expand_arm, ite_eq_right_iff, ← Nat.not_lt, ← Nat.not_lt]
    simp [imp_iff_not_or]
  · rw [expand_arm, if_pos ⟨hnow, hlead⟩]

end Sys2Proof.Machine
end

section
/-! SUPPORT and proofs for the family of spec/40_interval_table.md: the Interval Table and its indexer, and the run of
EDGEs that reads every entry once. -/

namespace Sys2Proof.Machine

/-! Table reads (R40, R80). -/

theorem valueAt_eq_none {cfg : Config} {c : Nat} (hc : cfg.tableLen ≤ c) : valueAt cfg c = none :=
  if_neg (Nat.not_lt.2 hc)

/-- EDGE in an armed state whose cursor stands outside the table. -/
theorem exec_edge_outOfTable {s : State} {c l : Nat} (hf : s.fsm = .armed) (hc : s.cursor = some c)
    (hl : s.last = some l) (hv : valueAt s.cfg c = none) : exec .edge s = .refused .tableIndexOutOfRange := by
  simp [exec, execEdge, stuck?_armed hf, hf, hc, hl, hv]

/-- Settles O29: a well-formed table's entries are words other than 0, and outside the table there is nothing to
read. -/
theorem tableReads : Obligations.TableReads := by
  refine ⟨fun cfg c hw hc => ?_, fun _ _ hc => valueAt_eq_none hc,
    fun _ _ _ hf hc hl hout => exec_edge_outOfTable hf hc hl (valueAt_eq_none hout)⟩
  obtain ⟨hpos, hlt⟩ := wf_entry hw hc
  exact ⟨valueAt_wf hw hc, hpos, Nat.le_sub_one_of_lt hlt⟩

/-! The indexer (R81, R82). -/

section
variable {cfg : Config} {c : Nat}

/-- The form of `next_cursor` that compares instead of dividing (R81). -/
theorem nextCursor_eq_ite (hc : c < cfg.tableLen) :
    nextCursor cfg c = if c = cfg.tableLen - 1 then 0 else c + 1 := by
  unfold nextCursor
  split
  · next hlast => rw [show c + 1 = cfg.tableLen by omega, Nat.mod_self]
  · next hlast => exact Nat.mod_eq_of_lt (by omega)

theorem nextCursor_iterate (hc : c < cfg.tableLen) (k : Nat) :
    (nextCursor cfg)^[k] c = (c + k) % cfg.tableLen := by
  induction k with
  | zero => exact (Nat.mod_eq_of_lt hc).symm
  | succ k ih => rw [Function.iterate_succ_apply', ih, nextCursor, Nat.mod_add_mod, Nat.add_assoc]

theorem nextCursor_iterate_tableLen (hc : c < cfg.tableLen) : (nextCursor cfg)^[cfg.tableLen] c = c := by
  rw [nextCursor_iterate hc, Nat.add_mod_right, Nat.mod_eq_of_lt hc]

/-- The cursor is back after exactly the multiples of the table's length. -/
theorem nextCursor_iterate_eq_self_iff (hc : c < cfg.tableLen) (j : Nat) :
    (nextCursor cfg)^[j] c = c ↔ cfg.tableLen ∣ j := by
  rw [nextCursor_iterate hc, ← Nat.add_modEq_left_iff (a := c), Nat.ModEq, Nat.mod_eq_of_lt hc]

end

/-- Settles O30: the range is the remainder's, and the remaining forms are the comparing one or the defining one at
the length named. -/
theorem nextCursorForms : Obligations.NextCursorForms := by
  refine fun cfg c hN hc => ⟨rfl, nextCursor_eq_ite hc, nextCursor_lt hN c, fun hone => ?_, fun hpow => ?_⟩
  · rw [nextCursor_eq_ite hc, if_pos (by omega)]
    omega
  · rw [nextCursor, hpow]

/-- Settles O31: `k` steps of the cursor add `k` modulo the table's length. -/
theorem cursorWrapLaw : Obligations.CursorWrapLaw := by
  refine fun cfg hN => ⟨fun c hc => nextCursor_iterate_tableLen hc, fun k => ?_, fun c j hc hpos hlt => ?_⟩
  · rw [nextCursor_iterate hN, Nat.zero_add]
  · rw [Ne, nextCursor_iterate_eq_self_iff hc]
    exact Nat.not_dvd_of_pos_of_lt hpos hlt

/-! The run over the whole table (R86). -/

/-- The entries that `k` EDGEs read one after the other, from the cursor `c` on. -/
def entriesFrom (cfg : Config) (c k : Nat) : List Nat :=
  (List.iterate (nextCursor cfg) c k).map fun i => cfg.table.getD i 0

/-- As many EDGEs as the table is long read the table itself, turned so that it begins at the cursor. -/
theorem entriesFrom_tableLen {cfg : Config} {c : Nat} (hw : cfg.wf = true) (hc : c < cfg.tableLen) :
    entriesFrom cfg c cfg.tableLen = cfg.table.rotate c := by
  have hlen := wf_table_length hw
  apply List.ext_getElem
  · simp [entriesFrom, hlen]
  · intro k hk hk'
    have hlt : (c + k) % cfg.tableLen < cfg.table.length := by rw [hlen]; exact Nat.mod_lt _ (wf_tableLen_pos hw)
    simp [entriesFrom, nextCursor_iterate hc, List.getElem_rotate, hlen, Nat.add_comm k c,
      List.getElem?_eq_getElem hlt]

/-- Additions modulo `2 ^ W` in a row are one addition of the sum; the list is not empty, as only an addition reduces
`l` (R92). -/
theorem foldl_reArmAdd (cfg : Config) (l v : Nat) (vs : List Nat) :
    (v :: vs).foldl (reArmAdd cfg) l = (l + (v :: vs).sum) % cfg.period := by
  induction vs generalizing l v with
  | nil => simp [reArmAdd]
  | cons w ws ih =>
    rw [List.foldl_cons, ih, reArmAdd, Nat.mod_add_mod, List.sum_cons (a := v), Nat.add_assoc]

/-- One presented EDGE (R93), as the scheduler's registers show it. -/
theorem step_present_edge {s : State} {c l : Nat} {more : List Input} (hw : s.cfg.wf = true) (hf : s.fsm = .armed)
    (hc : s.cursor = some c) (hlt : c < s.cfg.tableLen) (hl : s.last = some l)
    (hi : s.inputs = present (encode .edge) :: more) :
    ∃ u, step s = .next u ∧ u.cfg = s.cfg ∧ u.fsm = .armed ∧ u.cursor = some (nextCursor s.cfg c)
      ∧ u.last = some (reArmAdd s.cfg l (s.cfg.table.getD c 0)) ∧ u.inputs = more := by
  have hedge := exec_edge_runs (s := beginCycle more s) hf hc hl (valueAt_wf hw hlt)
  exact ⟨_, (step_present hw hi rfl).trans hedge, by simp⟩

/-- `k` presented EDGEs (R93): the cursor steps `k` times, `LAST` gains the entries read on the way. -/
theorem run_edges (k : Nat) {s : State} {c l : Nat} {rest : List Input} (hw : s.cfg.wf = true)
    (hf : s.fsm = .armed) (hc : s.cursor = some c) (hlt : c < s.cfg.tableLen) (hl : s.last = some l)
    (hi : s.inputs = List.replicate k (present (encode .edge)) ++ rest) :
    ∃ t, core.run k s = .next t ∧ t.fsm = .armed ∧ t.cursor = some ((nextCursor s.cfg)^[k] c)
      ∧ t.last = some ((entriesFrom s.cfg c k).foldl (reArmAdd s.cfg) l) ∧ t.inputs = rest := by
  induction k generalizing s c l with
  | zero => exact ⟨s, rfl, hf, hc, hl, hi⟩
  | succ k ih =>
    obtain ⟨u, hstep, hcfg, huf, huc, hul, hui⟩ := step_present_edge hw hf hc hlt hl hi
    have hnext : nextCursor s.cfg c < u.cfg.tableLen := hcfg ▸ nextCursor_lt (wf_tableLen_pos hw) c
    obtain ⟨t, hrun, ht⟩ := ih (hcfg ▸ hw) huf huc hnext hul hui
    rw [hcfg] at ht
    exact ⟨t, (run_succ_next k hstep).trans hrun, ht⟩

/-- Settles O32: the EDGEs read the table turned to the cursor, whose sum is the table's. -/
theorem tablePeriodLaw : Obligations.TablePeriodLaw := by
  refine ⟨fun s c l rest hw hf hc hlt hl hi => ?_, by decide⟩
  obtain ⟨t, hrun, htf, htc, htl, hti⟩ := run_edges s.cfg.tableLen hw hf hc hlt hl hi
  rw [nextCursor_iterate_tableLen hlt] at htc
  refine ⟨t, hrun, htf, htc, ?_, hti⟩
  rw [htl, entriesFrom_tableLen hw hlt]
  have hsum : (s.cfg.table.rotate c).sum = s.cfg.table.sum := (List.rotate_perm _ _).sum_eq
  have hne : s.cfg.table.rotate c ≠ [] := by
    rw [Ne, List.rotate_eq_nil_iff, ← List.length_eq_zero_iff, wf_table_length hw]
    exact Nat.ne_of_gt (wf_tableLen_pos hw)
  obtain ⟨v, vs, hvs⟩ := List.exists_cons_of_ne_nil hne
  rw [← hsum, hvs, foldl_reArmAdd, Config.period]

/-! The table of this hardware (R84). -/

/-- Settles O5: the literal table, evaluated; its times are its entries halved, at 2 ticks per microsecond. -/
theorem hardwareTable : Obligations.HardwareTable := by
  refine ⟨rfl, rfl, by decide, ?_, by decide, ?_⟩
  · norm_num [microseconds, Config.hardware, Config.exampleTable]
  · norm_num [microseconds, Config.hardware]

end Sys2Proof.Machine
end

section
/-! SUPPORT and proofs for the family of spec/41_scheduler.md: what ARM and EDGE do (R90 to R98), that only EDGE moves
the schedule of an armed block (R100), and the programmed schedule the two write (R99). -/

namespace Sys2Proof.Machine

/-! What ARM and EDGE add to the readings of the history (R90, R93). -/

section
variable (s : State)

@[simp] theorem cmpWrites_armSteps (t : Nat) : cmpWrites (armSteps t s).hist = cmpWrites s.hist ++ [t] := by
  obtain ⟨e, hhist, hcw, -⟩ := armSteps_hist s t
  rw [hhist, cmpWrites_append, hcw]

@[simp] theorem edgeCount_armSteps (t : Nat) : edgeCount (armSteps t s).hist = edgeCount s.hist := by
  simp [armSteps_eq]

variable (c l v : Nat)

@[simp] theorem cmpWrites_edgeSteps :
    cmpWrites (edgeSteps c l v s).hist = cmpWrites s.hist ++ [reArmAdd s.cfg l v] := by
  obtain ⟨e, hhist, hcw, -⟩ := edgeSteps_hist s c l v
  rw [hhist, cmpWrites_append, hcw]

@[simp] theorem edgeCount_edgeSteps : edgeCount (edgeSteps c l v s).hist = edgeCount s.hist + 1 := by
  simp [edgeSteps_eq]

end

/-! The rules of ARM and EDGE. Where no match falls inside, each is one update without the platform's answer. -/

section
variable {s : State}

theorem matchesOnWrite_eq_false {t : Nat} (h : s.cfg.matchOnWrite = false ∨ s.tcnt ≠ t) :
    matchesOnWrite t s = false := by
  simpa [matchesOnWrite, imp_iff_not_or] using h

/-- ARM whose compare write does not match at once (R90, R153). -/
theorem armSteps_eq_of_noMatch {t : Nat} (h : matchesOnWrite t s = false) :
    armSteps t s =
      { s with
        fsm := .armed
        cursor := some 0
        last := some t
        cmp := t
        out := { s.out with cmpWr := some t }
        hist := s.hist ++ [.cmpWritten t] } := by
  simp [armSteps_eq, h]

/-- EDGE without a match inside: its events stand in the order of its steps (R93). -/
theorem edgeSteps_eq_of_noMatch {c l v : Nat}
    (h : matchesDuringEdge s.cfg s.handler s.tcnt s.cmp (reArmAdd s.cfg l v) = 0) :
    edgeSteps c l v s =
      { s with
        fsm := .armed
        cursor := some (nextCursor s.cfg c)
        last := some (reArmAdd s.cfg l v)
        tcnt := countAfter s.cfg (s.handler.toWrite + s.handler.toSignal) s.tcnt
        cmp := reArmAdd s.cfg l v
        pend := true
        out := { s.out with ack := true, cmpWr := some (reArmAdd s.cfg l v) }
        mf := false
        hist := s.hist ++ [.acked, .cmpWritten (reArmAdd s.cfg l v), .signalled] } := by
  obtain ⟨hbefore, hfrom⟩ := Nat.add_eq_zero_iff.1 ((matchesDuringEdge_eq s _).symm.trans h)
  simp [edgeSteps_eq, h, hbefore, hfrom, countAfter_add, tcntAtWrite]

variable (s) (c l v : Nat)

@[simp] theorem edgeSteps_pend : (edgeSteps c l v s).pend = true := by rw [edgeSteps_eq]
@[simp] theorem edgeSteps_tcnt :
    (edgeSteps c l v s).tcnt = countAfter s.cfg (s.handler.toWrite + s.handler.toSignal) s.tcnt := by
  rw [edgeSteps_eq, countAfter_add, tcntAtWrite]
@[simp] theorem edgeSteps_mf :
    (edgeSteps c l v s).mf = decide (0 < matchesDuringEdge s.cfg s.handler s.tcnt s.cmp (reArmAdd s.cfg l v)) := by
  rw [edgeSteps_eq]

end

/-- Settles O12: ARM's word and its two faults are laws of the model; its effect is `armSteps`, and the only answer of
the platform to it is an immediate match. -/
theorem armRule : Obligations.ArmRule := by
  refine ⟨fun w c h => decode_of_cmd (i := .arm 0 0) h,
    fun w c h => (decode_eq_context_iff w c).2 (by rw [h]; decide), fun s now lead t hf hi ht => ?_,
    fun s now lead hf => exec_arm_twice now lead hf, fun s now lead hf hi => exec_arm_ie now lead hf hi⟩
  obtain rfl : t = reArmAdd s.cfg now lead := ht
  exact ⟨_, exec_arm_arms now lead hf hi, by simp, by simp, by simp, by simp, by simp, by simp, by simp, by simp,
    fun hm => armSteps_eq_of_noMatch (matchesOnWrite_eq_false hm)⟩

/-- Settles O13: EDGE's word and its fault are laws of the model; its effect is `edgeSteps`, and the platform adds to
it only what a match inside does. -/
theorem edgeRule : Obligations.EdgeRule := by
  refine ⟨fun w c h => decode_of_cmd (i := .edge) h,
    fun w c h => (decode_eq_context_iff w c).2 (by rw [h]; decide), fun s c l t hw hf hc hlt hl ht => ?_,
    fun s hf => exec_edge_unarmed (.inl hf) (.inl hf)⟩
  obtain rfl : t = reArmAdd s.cfg l (s.cfg.table.getD c 0) := ht
  exact ⟨_, exec_edge_runs hf hc hl (valueAt_wf hw hlt), by simp, by simp [nextCursor], by simp, by simp, by simp,
    by simp, by simp, by simp, by simp, by simp, fun hm => edgeSteps_eq_of_noMatch hm⟩

/-- Settles O19: the adder is its definition, and both commands put its result in `LAST`. -/
theorem adderWraps : Obligations.AdderWraps :=
  ⟨fun _ _ _ => rfl, fun s now lead hf hi => ⟨_, exec_arm_arms now lead hf hi, by simp⟩,
    fun s c l v hf hc hl hv => ⟨_, exec_edge_runs hf hc hl hv, by simp⟩⟩

/-- Two additions of the re-arm adder are one of the sum (R92). -/
theorem reArmAdd_reArmAdd (cfg : Config) (l v w : Nat) :
    reArmAdd cfg (reArmAdd cfg l v) w = (l + v + w) % cfg.period := Nat.mod_add_mod _ _ _

/-- Settles O22: the first EDGE leaves the block armed, with what the second one reads. -/
theorem doubleFire : Obligations.DoubleFire := by
  intro s c l v w _ hf hc hl hv hv'
  have hsecond : exec .edge (edgeSteps c l v s) =
      .next (edgeSteps (nextCursor s.cfg c) (reArmAdd s.cfg l v) w (edgeSteps c l v s)) :=
    exec_edge_runs (by simp) (by simp) (by simp) (by simpa using hv')
  refine ⟨_, _, exec_edge_runs hf hc hl hv, hsecond, by simp, ?_, ?_, ?_⟩
  · rw [edgeSteps_last, edgeSteps_cfg, reArmAdd_reArmAdd]
  · rw [edgeSteps_cmp, edgeSteps_cfg, reArmAdd_reArmAdd]
  · rw [cmpWrites_edgeSteps, cmpWrites_edgeSteps, edgeSteps_cfg, reArmAdd_reArmAdd, List.append_assoc]
    rfl

/-- Settles O26: neither EDGE's checks nor its writes of the block's registers read the counter or `MF`. -/
theorem edgeIgnoresCounterAndMatchFlag : Obligations.EdgeIgnoresCounterAndMatchFlag := by
  intro s t x f h
  obtain ⟨hlive, he⟩ := exec_next_iff.1 h
  cases he with
  | edge c l v hf hc hl hv =>
    exact ⟨_, exec_edge_runs (s := { s with tcnt := x, mf := f }) hf hc hl hv, by simp⟩
  | edgeUnarmed hu =>
    exact ⟨_, exec_edge_unarmed (s := { s with tcnt := x, mf := f }) hlive hu, by simp⟩

/-! The dispatch in an armed block (R140). -/

section
variable {s : State} {rest : List Input}

/-- Where the match source is enabled and a match is pending, the dispatch is one EDGE. -/
theorem step_dispatch_edge {c l v : Nat} (hw : s.cfg.wf = true) (hi : s.inputs = .dispatch :: rest)
    (hf : s.fsm = .armed) (hc : s.cursor = some c) (hl : s.last = some l) (hv : valueAt s.cfg c = some v)
    (hie : s.ie = true) (hsrc : s.srcEn = true) (hmf : s.mf = true) :
    step s = .next (edgeSteps c l v (beginCycle rest s)) := by
  have hen : dispatchEnabled (beginCycle rest s) = true := by simp [dispatchEnabled, hf, hie, hsrc, hmf]
  rw [step_cons hw hi, runInput_dispatch hen]
  exact exec_edge_runs hf hc hl hv

/-- Without a pending match it issues nothing. -/
theorem step_dispatch_idle (hw : s.cfg.wf = true) (hi : s.inputs = .dispatch :: rest) (hmf : s.mf = false) :
    step s = .next (beginCycle rest s) := by
  rw [step_cons hw hi]
  simp [runInput, runDispatch, dispatchEnabled, hmf]

end

/-- Settles O37: the EDGE of the first opportunity acknowledges the merged matches, so the second finds `MF` 0 and
issues nothing. -/
theorem mergedMatchesCauseOneEdge : Obligations.MergedMatchesCauseOneEdge := by
  intro s c l v rest hw hf hc hl hv hie hsrc hmf hnone hi
  have hfirst := step_dispatch_edge hw hi hf hc hl hv hie hsrc hmf
  have hmf1 : (edgeSteps c l v (beginCycle (.dispatch :: rest) s)).mf = false := by simp [hnone]
  have hsecond := step_dispatch_idle (rest := rest) (by simpa using hw) (by simp) hmf1
  exact ⟨_, (run_succ_next 1 hfirst).trans (run_succ_next 0 hsecond), by simp, by simp, hmf1, by simp, by simp, rfl⟩

/-! Only EDGE moves the schedule of an armed block (R100). -/

/-- `CURSOR`, `LAST` or `CMP` changed from `s` to `t`. -/
def ScheduleMoved (s t : State) : Prop := t.cursor ≠ s.cursor ∨ t.last ≠ s.last ∨ t.cmp ≠ s.cmp

/-- The input `x` runs an EDGE or resets the block: a dispatch, a reset cycle, or the presented word `0x82`. -/
def RunsEdgeOrResets (x : Input) : Prop :=
  x = .dispatch ∨ ∃ p, x = .cycle p ∧ (p.rst = true ∨ (p.cmdValid = true ∧ p.command.cmd = 0x82))

section
variable {s t : State}

theorem SchedulerRests.not_scheduleMoved (h : SchedulerRests s t) : ¬ ScheduleMoved s t := by
  simp [ScheduleMoved, h.cursor, h.last, h.cmp]

theorem not_scheduleMoved_raiseFault (code : FaultCode) (w : BitVec 8) : ¬ ScheduleMoved s (raiseFault code w s) := by
  simp [ScheduleMoved]

/-- Of the two commands that may move the schedule (R47), ARM faults where the block is armed (R90). -/
theorem Effect.edge_of_scheduleMoved {i : Instr} (he : Effect s i t) (hf : s.fsm = .armed) (hm : ScheduleMoved s t) :
    i = .edge := by
  obtain ⟨-, hwriters, -⟩ := commandFrame s t i (exec_next_iff.2 ⟨.inr hf, he⟩)
  obtain hedge | ⟨now, lead, rfl⟩ := hwriters (hm.imp_right (Or.imp_right Or.inl))
  · exact hedge
  · cases he with
    | arm _ _ hun _ => rw [hf] at hun; cases hun
    | armTwice => exact absurd hm (not_scheduleMoved_raiseFault _ _)
    | armIrqEnabled => exact absurd hm (not_scheduleMoved_raiseFault _ _)

theorem Change.runsEdgeOrResets {x : Input} (hx : Change s x t) (hf : s.fsm = .armed) (hm : ScheduleMoved s t) :
    RunsEdgeOrResets x := by
  have hplatform {ie srcEn toggleEn mf counterRead handler} :=
    (schedulerRests_platform (s := s) ie srcEn toggleEn mf counterRead handler).not_scheduleMoved
  cases hx with
  | idle p hr hv => exact absurd hm hplatform
  | reset p hr => exact .inr ⟨p, rfl, .inl hr⟩
  | command p i t hr hv hd hl he =>
    refine .inr ⟨p, rfl, .inr ⟨hv, ?_⟩⟩
    rw [cmd_of_decode hd, he.edge_of_scheduleMoved hf hm]
    rfl
  | reject p r hr hv hd hl => exact absurd hm (not_scheduleMoved_raiseFault _ _)
  | tick => exact absurd hm schedulerRests_timerTick.not_scheduleMoved
  | dispatch t hen hl he => exact .inl rfl
  | noDispatch hen => exact .inl rfl
  | setIe on => exact absurd hm hplatform
  | enableToggle => exact absurd hm hplatform
  | installHandler => exact absurd hm hplatform
  | ackMatchFlag => exact absurd hm hplatform
  | readCounter => exact absurd hm hplatform
  | handler d => exact absurd hm hplatform

end

/-- Settles O27: the commands by what each does in `ARMED`, the step by what its one transaction does. -/
theorem onlyEdgeMovesTheSchedule : Obligations.OnlyEdgeMovesTheSchedule := by
  refine ⟨fun s i hf hi => ?_, fun s now lead hf => ⟨_, exec_arm_twice now lead hf, rfl, rfl, rfl, rfl, rfl⟩,
    fun s t hf hst hm => ?_⟩
  · have hl : Live s := .inr hf
    simp only [List.mem_cons, List.not_mem_nil, or_false] at hi
    obtain rfl | rfl | rfl | rfl := hi
    · exact ⟨_, exec_nop hl, rfl, rfl, rfl⟩
    · exact ⟨_, exec_sigclr hl, rfl, rfl, rfl⟩
    · exact ⟨_, exec_sigrd hl, rfl, rfl, rfl⟩
    · exact ⟨_, exec_sigrc hl, rfl, rfl, rfl⟩
  · obtain ⟨-, ⟨-, rfl⟩ | ⟨x, rest, hi, hx⟩⟩ := step_next hst
    · exact absurd hm SchedulerRests.refl.not_scheduleMoved
    · exact ⟨x, rest, hi, hx.runsEdgeOrResets hf hm⟩

/-! The programmed schedule (R99). -/

section
variable {s t : State} {p : Nat}

/-- ARM begins the schedule at its unreduced sum. -/
theorem scheduleFrom_armSteps (now lead : Nat) (h : cmpWrites s.hist = []) :
    ScheduleFrom (now + lead) (armSteps (reArmAdd s.cfg now lead) s) :=
  ⟨0, by simp [h, reArmAdd], by simp [reArmAdd], by simp⟩

/-- EDGE goes on with the next programmed time. -/
theorem ScheduleFrom.edgeSteps {c l v : Nat} (h : ScheduleFrom p s) (hc : s.cursor = some c) (hl : s.last = some l)
    (hv : valueAt s.cfg c = some v) : ScheduleFrom p (edgeSteps c l v s) := by
  obtain ⟨k, hcw, hlast, hcursor⟩ := h
  obtain rfl : c = k % s.cfg.tableLen := Option.some.inj (hc.symm.trans hcursor)
  obtain rfl : l = programmedTime s.cfg p k := Option.some.inj (hl.symm.trans hlast)
  obtain ⟨-, rfl⟩ := valueAt_some hv
  refine ⟨k + 1, ?_, ?_, ?_⟩
  · rw [cmpWrites_edgeSteps, edgeSteps_cfg, List.range_succ, List.map_append, hcw, ← programmedTime_succ]
    rfl
  · rw [edgeSteps_last, edgeSteps_cfg, programmedTime_succ]
  · rw [edgeSteps_cursor, edgeSteps_cfg, nextCursor, Nat.mod_add_mod]

theorem SchedulerRests.cmpWrites_eq (h : SchedulerRests s t) : cmpWrites t.hist = cmpWrites s.hist := by
  obtain ⟨e, hhist, hcw, -⟩ := h.hist
  rw [hhist, cmpWrites_append, hcw, List.append_nil]

theorem SchedulerRests.scheduleFrom_iff (h : SchedulerRests s t) : ScheduleFrom p t ↔ ScheduleFrom p s := by
  rw [ScheduleFrom, h.cfg, h.cmpWrites_eq, h.last, h.cursor, ScheduleFrom]

theorem SchedulerMove.scheduleInv {xs : List Input} (h : SchedulerMove xs s t) (hs : ScheduleInv s) :
    ScheduleInv t := by
  obtain ⟨hidle, harmed, hunarmed⟩ := hs
  cases h with
  | rest h =>
    simp only [ScheduleInv, h.fsm, h.scheduleFrom_iff, h.cmpWrites_eq]
    exact ⟨hidle, harmed, hunarmed⟩
  | reset hxs => simp [ScheduleInv]
  | fault code w hl hcode => simp [ScheduleInv]
  | arm now lead hxs hf hi =>
    exact ⟨by simp, fun _ => ⟨now + lead, scheduleFrom_armSteps now lead (hunarmed hf)⟩, by simp⟩
  | edge c l v hf hc hl hv =>
    obtain ⟨p, hp⟩ := harmed hf
    exact ⟨by simp, fun _ => ⟨p, hp.edgeSteps hc hl hv⟩, by simp⟩

/-- Once begun at `p` the schedule stays that one: another ARM needs a reset first. -/
theorem SchedulerMove.scheduleFrom {xs : List Input} (h : SchedulerMove xs s t) (hun : s.fsm ≠ .unarmed)
    (hs : s.fsm = .armed → ScheduleFrom p s) (ht : t.fsm = .armed) : ScheduleFrom p t := by
  cases h with
  | rest h => exact h.scheduleFrom_iff.2 (hs (h.fsm.symm.trans ht))
  | reset hxs => cases ht
  | fault code w hl hcode => cases ht
  | arm now lead hxs hf hi => exact absurd hf hun
  | edge c l v hf hc hl hv => exact (hs hf).edgeSteps hc hl hv

end

/-- Settles O48: ARM begins a schedule where no compare write stands, EDGE writes its next time, and no other move
touches it but a reset or a fault. -/
theorem stepKeepsScheduleInvariant : Obligations.StepKeepsScheduleInvariant := by
  intro s t hs hst
  obtain ⟨rest, hmove⟩ := step_move hst
  exact hmove.scheduleInv hs

/-! The run after an ARM (R99). -/

section
variable {s t u : State} {p : Nat}

/-- From `s` to `t` the history gained as many signals as compare writes. -/
def SignalPerWrite (s t : State) : Prop :=
  edgeCount t.hist + (cmpWrites s.hist).length = edgeCount s.hist + (cmpWrites t.hist).length

theorem SignalPerWrite.trans (h : SignalPerWrite s t) (h' : SignalPerWrite t u) : SignalPerWrite s u := by
  unfold SignalPerWrite at *
  omega

/-- Only ARM writes `CMP` without a signal, and it needs `UNARMED`. -/
theorem Effect.signalPerWrite {i : Instr} (he : Effect s i t) (hun : s.fsm ≠ .unarmed) : SignalPerWrite s t := by
  cases he with
  | nop => rfl
  | arm now lead hf hi => exact absurd hf hun
  | armTwice now lead hf => simp [SignalPerWrite]
  | armIrqEnabled now lead hf hi => exact absurd hf hun
  | edge c l v hf hc hl hv =>
    simp only [SignalPerWrite, edgeCount_edgeSteps, cmpWrites_edgeSteps, List.length_append, List.length_singleton]
    omega
  | edgeUnarmed h => simp [SignalPerWrite]
  | sigclr => simp [SignalPerWrite]
  | sigrd => simp [SignalPerWrite]
  | sigrc => simp [SignalPerWrite]

theorem Change.signalPerWrite {x : Input} {rest : List Input} (hx : Change s x t) (hun : s.fsm ≠ .unarmed)
    (hnr : NoReset (x :: rest)) : SignalPerWrite s t := by
  cases hx with
  | idle p hr hv => rfl
  | reset p hr => simp [hnr p] at hr
  | command p i t hr hv hd hl he => exact he.signalPerWrite hun
  | reject p r hr hv hd hl => simp [SignalPerWrite]
  | tick => simp [SignalPerWrite, timerTick_eq, afterMatches]
  | dispatch t hen hl he => exact he.signalPerWrite hun
  | noDispatch hen => rfl
  | setIe on => rfl
  | enableToggle => rfl
  | installHandler => rfl
  | ackMatchFlag => rfl
  | readCounter => rfl
  | handler d => rfl

/-- No act writes the schedule of acts itself. -/
theorem Change.inputs_eq {x : Input} (hx : Change s x t) : t.inputs = s.inputs := by
  have hcommand {i : Instr} (hl : Live s) (he : Effect s i t) : t.inputs = s.inputs := by
    obtain ⟨⟨-, -, -, -, -, -, hinputs, -⟩, -⟩ := commandFrame s t i (exec_next_iff.2 ⟨hl, he⟩)
    exact hinputs
  cases hx with
  | idle p hr hv => rfl
  | reset p hr => rfl
  | command p i t hr hv hd hl he => exact hcommand hl he
  | reject p r hr hv hd hl => rfl
  | tick => rw [timerTick_eq]; rfl
  | dispatch t hen hl he => exact hcommand hl he
  | noDispatch hen => rfl
  | setIe on => rfl
  | enableToggle => rfl
  | installHandler => rfl
  | ackMatchFlag => rfl
  | readCounter => rfl
  | handler d => rfl

/-- What a run without a reset keeps from the state `s` that ARM left: at `t` the block is on the schedule from `p`, or
faulted, and each further compare write came with a signal. -/
structure OnSchedule (p : Nat) (s t : State) : Prop where
  cfg : t.cfg = s.cfg
  noReset : NoReset t.inputs
  fsm : t.fsm ≠ .unarmed
  signals : SignalPerWrite s t
  schedule : t.fsm = .armed → ScheduleFrom p t

theorem NoReset.not_headIsReset {xs : List Input} (h : NoReset xs) : ¬ HeadIsReset xs := by
  rintro ⟨p, rest, rfl, hr⟩
  simp [h p] at hr

theorem step_signalPerWrite_noReset (hst : step s = .next t) (hun : s.fsm ≠ .unarmed) (hnr : NoReset s.inputs) :
    SignalPerWrite s t ∧ NoReset t.inputs := by
  obtain ⟨-, ⟨-, rfl⟩ | ⟨x, rest, hi, hx⟩⟩ := step_next hst
  · exact ⟨rfl, by simp [NoReset]⟩
  · rw [hi] at hnr
    refine ⟨hx.signalPerWrite hun hnr, fun p hp => hnr p ?_⟩
    rw [hx.inputs_eq] at hp
    exact List.mem_cons_of_mem _ hp

theorem OnSchedule.step (h : OnSchedule p s t) (hst : step t = .next u) : OnSchedule p s u := by
  obtain ⟨hcfg, hnr, hfsm, hsignals, hschedule⟩ := h
  obtain ⟨rest, hmove⟩ := step_move hst
  obtain ⟨hsignals', hnr'⟩ := step_signalPerWrite_noReset hst hfsm hnr
  refine ⟨hmove.cfg_eq.trans hcfg, hnr', fun hu => ?_, hsignals.trans hsignals', hmove.scheduleFrom hfsm hschedule⟩
  obtain ⟨-, hreset⟩ | ⟨hun, -⟩ | ⟨-, hfaulted⟩ := hmove.fsm_transition (by rw [hu]; exact hfsm.symm)
  · exact hnr.not_headIsReset hreset
  · exact hfsm hun
  · rw [hu] at hfaulted; cases hfaulted

theorem OnSchedule.run (n : Nat) (h : OnSchedule p s t) (hrun : core.run n t = .next u) : OnSchedule p s u := by
  induction n generalizing t with
  | zero => cases hrun; exact h
  | succ n ih =>
    obtain ⟨t', hst, hrun'⟩ := run_succ_inv hrun
    exact ih (h.step hst) hrun'

/-- ARM puts the block on the schedule. -/
theorem onSchedule_armSteps (now lead : Nat) (hcw : cmpWrites s.hist = []) (hnr : NoReset s.inputs) :
    OnSchedule (now + lead) (armSteps (reArmAdd s.cfg now lead) s) (armSteps (reArmAdd s.cfg now lead) s) :=
  ⟨rfl, by simpa using hnr, by simp, rfl, fun _ => scheduleFrom_armSteps now lead hcw⟩

end

/-- Settles O51: every state of the run is on ARM's schedule, and after ARM's compare write each one comes with a
signal, so the schedule's index is the number of EDGEs. -/
theorem programmedScheduleLaw : Obligations.ProgrammedScheduleLaw := by
  intro s now lead _ hf hi hcw hnr
  refine ⟨_, exec_arm_arms now lead hf hi, fun n t hrun ht => ?_⟩
  obtain ⟨hcfg, -, -, hsignals, hschedule⟩ := (onSchedule_armSteps now lead hcw hnr).run n hrun
  obtain ⟨k, hwrites, -, hcursor⟩ := hschedule ht
  rw [armSteps_cfg] at hcfg
  refine ⟨k, ?_, by rw [hwrites, hcfg]; rfl, by rw [hcursor, hcfg]⟩
  simp only [SignalPerWrite, hwrites, cmpWrites_armSteps, hcw, edgeCount_armSteps, List.nil_append,
    List.length_singleton, List.length_map, List.length_range] at hsignals
  omega

end Sys2Proof.Machine
end

section
/-! SUPPORT and proofs for the family of spec/42_consumer_signal.md: what NOP, SIGCLR, SIGRD and SIGRC do (R110 to
R116), that they cannot reach the scheduler (R117), what the two reads observe (R115), and that a consumer which clears
with SIGRC only erases no signal unread (R114). -/

namespace Sys2Proof.Machine

/-- A foreground command's word with `CTX` set is a CONTEXT fault (R66). -/
theorem decode_context_of_cmd {w : Nat} {c : Command} {i : Instr} (hi : i ≠ .edge) (h : c.cmd = i.word ||| 0x80) :
    decode w c = .reject .context := by
  rw [decode_eq_context_iff, h]
  cases i with
  | edge => exact absurd rfl hi
  | nop => decide
  | arm now lead => simp only [Instr.word]; decide
  | sigclr => decide
  | sigrd => decide
  | sigrc => decide

/-- Settles O11: NOP's word is all of it, and its effect is none. -/
theorem nopRule : Obligations.NopRule :=
  ⟨fun _ _ => decode_eq_command_iff.trans (and_iff_left rfl),
    fun _ _ h => decode_context_of_cmd (i := .nop) (by simp) h, fun _ hl => exec_nop hl⟩

/-- Settles O16: its effect is `clearSignal`. -/
theorem sigclrRule : Obligations.SigclrRule :=
  ⟨fun _ _ h => decode_of_cmd (i := .sigclr) h, fun _ _ h => decode_context_of_cmd (i := .sigclr) (by simp) h,
    fun _ hl => exec_sigclr hl⟩

/-- Settles O17: its effect is `returnBit`, which leaves `PEND` for the next read; before ARM `PEND` is 0 by the signal
invariant. -/
theorem sigrdRule : Obligations.SigrdRule := by
  refine ⟨fun _ _ h => decode_of_cmd (i := .sigrd) h, fun _ _ h => decode_context_of_cmd (i := .sigrd) (by simp) h,
    fun s hl => exec_sigrd hl, fun s hs hf => ?_, fun s hl => ?_⟩
  · obtain ⟨-, -, hzero⟩ := hs
    exact ⟨_, exec_sigrd (.inl hf), by simp [hzero hf]⟩
  · have hl' : Live (returnBit s.pend s) := hl
    exact ⟨_, _, exec_sigrd hl, exec_sigrd hl', by simp, by simp, by simp⟩

/-- Settles O18: its effect is `returnBit` and then `clearSignal`, which leaves 0 for the next read. -/
theorem sigrcRule : Obligations.SigrcRule := by
  refine ⟨fun _ _ h => decode_of_cmd (i := .sigrc) h, fun _ _ h => decode_context_of_cmd (i := .sigrc) (by simp) h,
    fun s hl => ?_, fun s hl => ?_⟩
  · rw [exec_sigrc hl]
    simp [clearSignal, returnBit, emit]
  · have hl' : Live (clearSignal (returnBit s.pend s)) := hl
    exact ⟨_, _, exec_sigrc hl, exec_sigrc hl', by simp⟩

/-- Settles O25: neither the four effects nor the check of `FSM` before them name one of the scheduler's registers. -/
theorem foregroundCannotReachScheduler : Obligations.ForegroundCannotReachScheduler := by
  intro s i hl hi
  have hlive (c l m f) : Live { s with cursor := c, last := l, cmp := m, mf := f } := hl
  simp only [List.mem_cons, List.not_mem_nil, or_false] at hi
  obtain rfl | rfl | rfl | rfl := hi
  · exact ⟨_, exec_nop hl, rfl, rfl, rfl, rfl, fun c l m f => exec_nop (hlive c l m f)⟩
  · exact ⟨_, exec_sigclr hl, rfl, rfl, rfl, rfl, fun c l m f => exec_sigclr (hlive c l m f)⟩
  · exact ⟨_, exec_sigrd hl, rfl, rfl, rfl, rfl, fun c l m f => exec_sigrd (hlive c l m f)⟩
  · exact ⟨_, exec_sigrc hl, rfl, rfl, rfl, rfl, fun c l m f => exec_sigrc (hlive c l m f)⟩

/-- Settles O52: both reads return `PEND` as it stood, which by the signal invariant is that reading of the history. -/
theorem signalObservationLaw : Obligations.SignalObservationLaw := by
  rintro s ⟨-, hpend, -⟩ hl
  exact ⟨⟨_, s.pend, exec_sigrd hl, rfl, hpend⟩, ⟨_, s.pend, exec_sigrc hl, rfl, hpend⟩⟩

/-! No signal is erased unread (R114). First the histories: only an appended clear asks for anything. -/

/-- A clear may stand right after the history `h`: it ends with a read, which returned 1 if a `Signalled` stood since
the clear before it. -/
def EndsWithRead (h : List Event) : Prop :=
  ∃ earlier b, h = earlier ++ [Event.read b] ∧ (SignalledSinceClear earlier → b = true)

section
variable {h e : List Event}

theorem readBeforeClear_iff :
    ReadBeforeClear h ↔ ∀ before after, h = before ++ Event.cleared :: after → EndsWithRead before := Iff.rfl

theorem ReadBeforeClear.append (hh : ReadBeforeClear h)
    (he : ∀ before after, e = before ++ Event.cleared :: after → EndsWithRead (h ++ before)) :
    ReadBeforeClear (h ++ e) := by
  rw [readBeforeClear_iff]
  intro before after heq
  obtain ⟨mid, rfl, hmid⟩ | ⟨mid, rfl, hmid⟩ := List.append_eq_append_iff.1 heq
  · exact he mid after hmid
  · cases mid with
    | nil => simpa only [List.append_nil] using he [] after hmid.symm
    | cons x mid =>
      obtain ⟨rfl, -⟩ := List.cons.inj hmid
      exact hh before mid rfl

theorem ReadBeforeClear.append_of_notMem (hh : ReadBeforeClear h) (he : Event.cleared ∉ e) :
    ReadBeforeClear (h ++ e) :=
  hh.append fun before after heq => absurd (by simp [heq]) he

/-- A read that returned 1 if a signal stood, and its clear. -/
theorem ReadBeforeClear.append_read_cleared {b : Bool} (hh : ReadBeforeClear h)
    (hb : SignalledSinceClear h → b = true) : ReadBeforeClear (h ++ [.read b] ++ [.cleared]) := by
  refine (hh.append_of_notMem (by simp)).append fun before after heq => ?_
  obtain rfl : before = [] := by
    cases before with
    | nil => rfl
    | cons x before => simp at heq
  exact ⟨h, b, List.append_nil _, hb⟩

end

/-! Then the commands and the platform: only SIGCLR and SIGRC clear. -/

@[simp] theorem cleared_notMem_matchTrace (en : Bool) (m : Nat) (p : Bool) : Event.cleared ∉ matchTrace en m p :=
  fun hmem => (matchTrace_neutral en m p _ hmem).2 rfl

section
variable {s t : State}

theorem readBeforeClear_armSteps (v : Nat) (hr : ReadBeforeClear s.hist) : ReadBeforeClear (armSteps v s).hist := by
  rw [armSteps_eq]
  exact (hr.append_of_notMem (by simp)).append_of_notMem (by simp)

theorem readBeforeClear_edgeSteps (c l v : Nat) (hr : ReadBeforeClear s.hist) :
    ReadBeforeClear (edgeSteps c l v s).hist := by
  rw [edgeSteps_eq]
  simp only [List.append_assoc]
  exact hr.append_of_notMem (by simp)

theorem readBeforeClear_timerTick (hr : ReadBeforeClear s.hist) : ReadBeforeClear (timerTick s).hist := by
  rw [timerTick_eq]
  exact hr.append_of_notMem (by simp)

theorem readBeforeClear_raiseFault (code : FaultCode) (w : BitVec 8) (hr : ReadBeforeClear s.hist) :
    ReadBeforeClear (raiseFault code w s).hist := by
  rw [raiseFault_hist]
  exact hr.append_of_notMem (by simp)

/-- SIGRC's read returns `PEND`, which by the signal invariant is 1 if a signal stands. -/
theorem Effect.readBeforeClear {i : Instr} (he : Effect s i t) (hi : i ≠ .sigclr) (hs : SignalInv s)
    (hr : ReadBeforeClear s.hist) : ReadBeforeClear t.hist := by
  cases he with
  | nop => exact hr
  | arm now lead hf hie => exact readBeforeClear_armSteps _ hr
  | armTwice now lead hf => exact readBeforeClear_raiseFault _ _ hr
  | armIrqEnabled now lead hf hie => exact readBeforeClear_raiseFault _ _ hr
  | edge c l v hf hc hl hv => exact readBeforeClear_edgeSteps c l v hr
  | edgeUnarmed h => exact readBeforeClear_raiseFault _ _ hr
  | sigclr => exact absurd rfl hi
  | sigrd => exact hr.append_of_notMem (by simp)
  | sigrc =>
    obtain ⟨-, hpend, -⟩ := hs
    exact hr.append_read_cleared hpend.2

theorem Change.readBeforeClear {x : Input} (hx : Change s x t)
    (hno : ∀ p, x = .cycle p → p.cmdValid = true → p.command.cmd ≠ 0x03) (hs : SignalInv s)
    (hr : ReadBeforeClear s.hist) : ReadBeforeClear t.hist := by
  cases hx with
  | idle p hrst hv => exact hr
  | reset p hrst => simp [ReadBeforeClear]
  | command p i t hrst hv hd hl he =>
    refine he.readBeforeClear (fun hi => hno p rfl hv ?_) hs hr
    rw [cmd_of_decode hd, hi]
    rfl
  | reject p r hrst hv hd hl => exact readBeforeClear_raiseFault _ _ hr
  | tick => exact readBeforeClear_timerTick hr
  | dispatch t hen hl he => exact he.readBeforeClear (by simp) hs hr
  | noDispatch hen => exact hr
  | setIe on => exact hr
  | enableToggle => exact hr
  | installHandler => exact hr
  | ackMatchFlag => exact hr
  | readCounter => exact hr
  | handler d => exact hr

end

/-- Settles O49: of the transactions only SIGRC is left to clear, and it reads `PEND` first. -/
theorem sigrcErasesNothingUnread : Obligations.SigrcErasesNothingUnread := by
  intro s t hs hr hst hno
  obtain ⟨-, ⟨-, rfl⟩ | ⟨x, rest, hi, hx⟩⟩ := step_next hst
  · exact hr
  · refine hx.readBeforeClear ?_ hs hr
    rintro p rfl
    exact hno p rest hi

end Sys2Proof.Machine
end

section
/-! SUPPORT and proofs for the family of spec/60_exceptions.md: where commands stop and what a fault leaves (R130), the
order of the checks (R138), the dispatch (R140), and the timer with the times of the matches it makes (R143, R150 to
R155). -/

namespace Sys2Proof.Machine

/-! Where no command has a step (R25, R130). -/

section
variable {s : State}

theorem stuck?_faulted (hf : s.fsm = .faulted) : stuck? s = some .stuckInFaulted := by simp [stuck?, hf]

theorem stuck?_triggering (hf : s.fsm = .triggering) : stuck? s = some .noStepWhileTriggering := by simp [stuck?, hf]

/-- A presented word stops there too, whether it is a command or not. -/
theorem runCommand_stuck {f : Fault} (h : stuck? s = some f) (c : Command) : runCommand c s = .fault f := by
  unfold runCommand
  split
  · exact exec_stuck h _
  · simp [whenLive, h]

/-! The dispatch (R140). -/

theorem dispatchEnabled_iff :
    dispatchEnabled s = true ↔
      s.ie = true ∧ s.srcEn = true ∧ s.mf = true ∧ s.fsm ≠ .triggering ∧ s.fsm ≠ .faulted := by
  simp [dispatchEnabled, and_assoc]

theorem step_dispatch_enabled {rest : List Input} (hw : s.cfg.wf = true) (hi : s.inputs = .dispatch :: rest)
    (hen : dispatchEnabled s = true) : step s = exec .edge (beginCycle rest s) :=
  (step_cons hw hi).trans (runInput_dispatch hen)

theorem step_dispatch_disabled {rest : List Input} (hw : s.cfg.wf = true) (hi : s.inputs = .dispatch :: rest)
    (hen : ¬ dispatchEnabled s = true) : step s = .next (beginCycle rest s) := by
  have hen' : ¬ dispatchEnabled (beginCycle rest s) = true := hen
  rw [step_cons hw hi]
  simp [runInput, runDispatch, hen']

end

/-- Settles O28: `stuck?` stops every command and every word, and neither state enables the dispatch. -/
theorem noStepWhereStuck : Obligations.NoStepWhereStuck := by
  refine ⟨fun s i hf => exec_stuck (stuck?_faulted hf) i, fun s i hf => exec_stuck (stuck?_triggering hf) i,
    fun s c hf => runCommand_stuck (stuck?_faulted hf) c, fun s rest hw hi hf => ?_⟩
  refine step_dispatch_disabled hw hi fun hen => ?_
  obtain ⟨-, -, -, hnt, hnf⟩ := dispatchEnabled_iff.1 hen
  exact hf.elim hnf hnt

/-- Settles O36: `dispatchEnabled` is the condition of R140. -/
theorem dispatchIssuesEdge : Obligations.DispatchIssuesEdge := fun _ _ hw hi =>
  ⟨fun h => step_dispatch_enabled hw hi (dispatchEnabled_iff.2 h),
    fun h => step_dispatch_disabled hw hi (mt dispatchEnabled_iff.1 h)⟩

/-- Settles O20: each check comes first where its word or state makes it fail. -/
theorem checkPriority : Obligations.CheckPriority := by
  refine ⟨fun w c h => (decode_eq_reservedCmd_iff w c).2 h,
    fun w c h => (decode_eq_reservedCmd_iff w c).2 (by rw [h]; decide),
    fun s c hl hd => ⟨_, runCommand_reject hd hl, rfl, rfl, rfl⟩,
    fun s now lead hf _ => ⟨_, exec_arm_twice now lead hf, rfl⟩,
    fun s hf => ⟨_, exec_edge_unarmed (.inl hf) (.inl hf), rfl⟩⟩

/-! What a fault changes (R130). -/

/-- The input `x` gives the block the command word `w`: the dispatch its `0x82`, a command cycle its own. -/
def PresentsWord (x : Input) (w : BitVec 8) : Prop :=
  x = .dispatch ∧ w = 0x82 ∨ ∃ p, x = .cycle p ∧ p.rst = false ∧ p.cmdValid = true ∧ p.command.cmd = w

section
variable {s t : State}

/-- A command that ends in `FAULTED` did nothing but raise its fault. -/
theorem Effect.raisesFault {i : Instr} (he : Effect s i t) (hs : s.fsm ≠ .faulted) (ht : t.fsm = .faulted) :
    ∃ code, code ≠ .noFault ∧ t = raiseFault code i.word s := by
  cases he with
  | nop => exact absurd ht hs
  | arm now lead hf hi => rw [armSteps_fsm] at ht; cases ht
  | armTwice now lead hf => exact ⟨.armTwice, by decide, rfl⟩
  | armIrqEnabled now lead hf hi => exact ⟨.armIrqEnabled, by decide, rfl⟩
  | edge c l v hf hc hl hv => rw [edgeSteps_fsm] at ht; cases ht
  | edgeUnarmed h => exact ⟨.edgeUnarmed, by decide, rfl⟩
  | sigclr => exact absurd ht hs
  | sigrd => exact absurd ht hs
  | sigrc => exact absurd ht hs

/-- So did a transaction, by the word it gave the block. -/
theorem Change.raisesFault {x : Input} (hx : Change s x t) (hs : s.fsm ≠ .faulted) (ht : t.fsm = .faulted) :
    ∃ code w, code ≠ .noFault ∧ PresentsWord x w ∧ t = raiseFault code w s := by
  cases hx with
  | idle p hr hv => exact absurd ht hs
  | reset p hr => cases ht
  | command p i t hr hv hd hl he =>
    obtain ⟨code, hcode, heq⟩ := he.raisesFault hs ht
    exact ⟨code, i.word, hcode, .inr ⟨p, rfl, hr, hv, cmd_of_decode hd⟩, heq⟩
  | reject p r hr hv hd hl => exact ⟨_, _, rejectCode_ne_noFault r, .inr ⟨p, rfl, hr, hv, rfl⟩, rfl⟩
  | tick => exact absurd (schedulerRests_timerTick.fsm.symm.trans ht) hs
  | dispatch t hen hl he =>
    obtain ⟨code, hcode, heq⟩ := he.raisesFault hs ht
    exact ⟨code, _, hcode, .inl ⟨rfl, rfl⟩, heq⟩
  | noDispatch hen => exact absurd ht hs
  | setIe on => exact absurd ht hs
  | enableToggle => exact absurd ht hs
  | installHandler => exact absurd ht hs
  | ackMatchFlag => exact absurd ht hs
  | readCounter => exact absurd ht hs
  | handler d => exact absurd ht hs

end

/-- Settles O42: a step into `FAULTED` is `raiseFault` by its one transaction's word. -/
theorem faultsArePrecise : Obligations.FaultsArePrecise := by
  intro s t hst hs ht
  obtain ⟨-, ⟨-, rfl⟩ | ⟨x, rest, hi, hx⟩⟩ := step_next hst
  · exact absurd ht hs
  · obtain ⟨code, w, hcode, hword, rfl⟩ := hx.raisesFault hs ht
    exact ⟨x, rest, code, w, hi, hcode, hword, rfl⟩

/-! One tick (R150, R151). -/

/-- A step that is a tick: the counter's next value `x`, and one match if that is `CMP`. -/
theorem step_tick {s : State} {x : Nat} {rest : List Input} (hw : s.cfg.wf = true) (hi : s.inputs = .tick :: rest)
    (hx : x = nextCount s.cfg s.tcnt) :
    step s = .next (afterMatches (decide (x = s.cmp)).toNat { beginCycle rest s with tcnt := x }) := by
  subst hx
  rw [step_cons hw hi, runInput, timerTick_eq]
  rfl

/-- Settles O54: the tick makes a match or none, and the match toggles the pin or not. -/
theorem oneTick : Obligations.OneTick := by
  intro s x rest hw hi hx
  rw [step_tick hw hi hx]
  refine ⟨fun hne => ?_, fun heq hoff => ?_, fun heq hon => ?_⟩
  · simp [hne, beginCycle, Outputs.idle]
  · simp [heq, hoff, afterMatches, matchTrace, pinAfter, beginCycle, Outputs.idle]
  · simp [heq, hon, afterMatches, matchTrace, pinAfter, beginCycle, Outputs.idle]

/-! A run of `n` ticks (R150): what it leaves in each field. -/

/-- The state after `n` ticks of the schedule, which goes on with `rest`. -/
def ticked (n : Nat) (rest : List Input) (s : State) : State :=
  { runTicks n s with inputs := rest, out := if n = 0 then s.out else Outputs.idle }

section
variable (n : Nat) (rest : List Input) (s : State)

theorem ticked_eq :
    ticked n rest s =
      afterMatches (matchesIn s.cfg s.cmp n s.tcnt)
        { s with
          tcnt := countAfter s.cfg n s.tcnt, inputs := rest, out := if n = 0 then s.out else Outputs.idle } := by
  rw [ticked, runTicks_eq]; rfl

@[simp] theorem ticked_cfg : (ticked n rest s).cfg = s.cfg := by rw [ticked_eq]; rfl
@[simp] theorem ticked_fsm : (ticked n rest s).fsm = s.fsm := by rw [ticked_eq]; rfl
@[simp] theorem ticked_cursor : (ticked n rest s).cursor = s.cursor := by rw [ticked_eq]; rfl
@[simp] theorem ticked_last : (ticked n rest s).last = s.last := by rw [ticked_eq]; rfl
@[simp] theorem ticked_pend : (ticked n rest s).pend = s.pend := by rw [ticked_eq]; rfl
@[simp] theorem ticked_fault : (ticked n rest s).fault = s.fault := by rw [ticked_eq]; rfl
@[simp] theorem ticked_cmp : (ticked n rest s).cmp = s.cmp := by rw [ticked_eq]; rfl
@[simp] theorem ticked_ie : (ticked n rest s).ie = s.ie := by rw [ticked_eq]; rfl
@[simp] theorem ticked_srcEn : (ticked n rest s).srcEn = s.srcEn := by rw [ticked_eq]; rfl
@[simp] theorem ticked_counterRead : (ticked n rest s).counterRead = s.counterRead := by rw [ticked_eq]; rfl
@[simp] theorem ticked_handler : (ticked n rest s).handler = s.handler := by rw [ticked_eq]; rfl
@[simp] theorem ticked_inputs : (ticked n rest s).inputs = rest := rfl
@[simp] theorem ticked_tcnt : (ticked n rest s).tcnt = countAfter s.cfg n s.tcnt := by rw [ticked_eq]; rfl
@[simp] theorem ticked_mf : (ticked n rest s).mf = (s.mf || decide (0 < matchesIn s.cfg s.cmp n s.tcnt)) := by
  rw [ticked_eq]; rfl
@[simp] theorem ticked_pin :
    (ticked n rest s).pin = pinAfter s.toggleEn (matchesIn s.cfg s.cmp n s.tcnt) s.pin := by rw [ticked_eq]; rfl
@[simp] theorem matchCount_ticked :
    matchCount (ticked n rest s).hist = matchCount s.hist + matchesIn s.cfg s.cmp n s.tcnt := by
  simp [ticked_eq, afterMatches]

variable {rest s}

theorem run_ticked (hw : s.cfg.wf = true) (hi : s.inputs = List.replicate n .tick ++ rest) :
    core.run n s = .next (ticked n rest s) := run_ticks n hw hi

end

/-- Settles O53: the run is `ticked`, and its matches are counted by `matchesIn_eq`. -/
theorem timerLaw : Obligations.TimerLaw := by
  rintro s n rest hw ⟨htcnt, hcmp, -⟩ hi
  exact ⟨_, matchesIn s.cfg s.cmp n s.tcnt, run_ticked n hw hi, matchesIn_eq n htcnt hcmp,
    by simp [countAfter_eq n htcnt], by simp, by simp, by simp, by simp, by simp [pinAfter], by simp, by simp, by simp,
    by simp, by simp⟩

/-! The matches of ARM and EDGE (R143, R153). -/

section
variable (s : State)

@[simp] theorem matchCount_armSteps (t : Nat) :
    matchCount (armSteps t s).hist = matchCount s.hist + (s.cfg.matchOnWrite && s.tcnt == t).toNat := by
  simp [armSteps_eq, matchesOnWrite]

variable (c l v : Nat)

@[simp] theorem edgeSteps_pin :
    (edgeSteps c l v s).pin
      = pinAfter s.toggleEn (matchesDuringEdge s.cfg s.handler s.tcnt s.cmp (reArmAdd s.cfg l v)) s.pin := by
  rw [edgeSteps_eq]

@[simp] theorem matchCount_edgeSteps :
    matchCount (edgeSteps c l v s).hist
      = matchCount s.hist + matchesDuringEdge s.cfg s.handler s.tcnt s.cmp (reArmAdd s.cfg l v) := by
  simp [edgeSteps_eq, matchesDuringEdge_eq]

variable {s c l v}

/-- ARM whose compare write matches at once (R153). -/
theorem armSteps_eq_of_matchOnWrite (hmow : s.cfg.matchOnWrite = true) :
    armSteps s.tcnt s =
      { s with
        fsm := .armed
        cursor := some 0
        last := some s.tcnt
        cmp := s.tcnt
        out := { s.out with cmpWr := some s.tcnt }
        mf := true
        pin := s.pin ^^ s.toggleEn
        hist := s.hist ++ .cmpWritten s.tcnt :: .matched :: (if s.toggleEn then [.toggled (!s.pin)] else []) } := by
  simp [armSteps_eq, matchesOnWrite, hmow, matchTrace]

/-- EDGE without a tick inside, whose compare write matches at once (R153). -/
theorem edgeSteps_eq_of_matchOnWrite (hh : s.handler = ⟨0, 0⟩) (hmow : s.cfg.matchOnWrite = true)
    (ht : s.tcnt = reArmAdd s.cfg l v) :
    edgeSteps c l v s =
      { s with
        fsm := .armed
        cursor := some (nextCursor s.cfg c)
        last := some s.tcnt
        cmp := s.tcnt
        pend := true
        out := { s.out with ack := true, cmpWr := some s.tcnt }
        mf := true
        pin := s.pin ^^ s.toggleEn
        hist := s.hist ++ [.acked, .cmpWritten s.tcnt, .matched]
          ++ (if s.toggleEn then [.toggled (!s.pin)] else []) ++ [.signalled] } := by
  have hwrite : tcntAtWrite s = s.tcnt := by simp [tcntAtWrite, hh, countAfter]
  have hbefore : matchesBefore s = 0 := by simp [matchesBefore, hh, matchesIn]
  have hfrom : matchesFrom s.tcnt s = 1 := by simp [matchesFrom, hwrite, hmow, hh, matchesIn]
  have hduring : matchesDuringEdge s.cfg s.handler s.tcnt s.cmp s.tcnt = 1 := by
    rw [matchesDuringEdge_eq, hbefore, hfrom]
  simp only [edgeSteps_eq, ← ht, hduring, hwrite, hbefore, hfrom]
  simp [hh, countAfter, matchTrace, pinAfter]

end

/-- Settles O14: ARM's and EDGE's one update each, with the one match of the compare write. -/
theorem matchOnWrite : Obligations.MatchOnWrite := by
  refine ⟨fun s now lead hf hie hmow ht => ?_, fun s c l v hf hc hl hv hh hmow ht => ?_⟩
  · rw [exec_arm_arms now lead hf hie, reArmAdd, ← ht, armSteps_eq_of_matchOnWrite hmow]
  · rw [exec_edge_runs hf hc hl hv, edgeSteps_eq_of_matchOnWrite hh hmow ht]

/-! When a match falls inside an EDGE (R94, R143). -/

section
variable {cfg : Config}

/-- Ticks make a match as soon as they reach the compare value (R150). -/
theorem matchesIn_pos_iff (n : Nat) {t m : Nat} (ht : t < cfg.period) (hm : m < cfg.period) :
    0 < matchesIn cfg m n t ↔ ticksToMatch cfg t m ≤ n := by
  rw [matchesIn_eq n ht hm, Nat.div_pos_iff]
  have hrange := ticksToMatch_range ht hm
  omega

variable {s : State} {c l v t : Nat}

theorem matchesDuringEdge_pos_iff :
    0 < matchesDuringEdge s.cfg s.handler s.tcnt s.cmp t ↔
      0 < matchesIn s.cfg s.cmp s.handler.toWrite s.tcnt
      ∨ (s.cfg.matchOnWrite = true ∧ countAfter s.cfg s.handler.toWrite s.tcnt = t)
      ∨ 0 < matchesIn s.cfg t s.handler.toSignal (countAfter s.cfg s.handler.toWrite s.tcnt) := by
  have himmediate (b : Bool) : 0 < b.toNat ↔ b = true := by cases b <;> decide
  simp [matchesDuringEdge, himmediate]

/-- A match inside an EDGE is dispatched as a second EDGE after it (R143). -/
theorem step_dispatch_after_edge {rest : List Input} (hw : s.cfg.wf = true)
    (hm : 0 < matchesDuringEdge s.cfg s.handler s.tcnt s.cmp (reArmAdd s.cfg l v))
    (hie : s.ie = true) (hsrc : s.srcEn = true) :
    ∃ t, step { edgeSteps c l v s with inputs := .dispatch :: rest } = .next t ∧ t.fsm = .armed
      ∧ t.cursor = some (nextCursor s.cfg (nextCursor s.cfg c)) ∧ edgeCount t.hist = edgeCount s.hist + 2 := by
  have hnext : valueAt s.cfg (nextCursor s.cfg c) = some (s.cfg.table.getD (nextCursor s.cfg c) 0) :=
    valueAt_wf hw (nextCursor_lt (wf_tableLen_pos hw) c)
  have hst := step_dispatch_edge (s := { edgeSteps c l v s with inputs := .dispatch :: rest }) (by simpa using hw) rfl
    (edgeSteps_fsm s c l v) (edgeSteps_cursor s c l v) (edgeSteps_last s c l v) (by simpa using hnext)
    (by simpa using hie) (by simpa using hsrc) (by simpa using hm)
  exact ⟨_, hst, by simp, by simp, by simp⟩

end

/-- Settles O15: the registers by EDGE's field lemmas, the matches inside it by what each of its three parts reaches,
and after one of them the dispatch by `step_dispatch_after_edge`. -/
theorem matchDuringEdge : Obligations.MatchDuringEdge := by
  rintro s c l v n hw ⟨htcnt, hcmp, -⟩ hf hc hl hv rfl
  have hwrite := countAfter_eq s.handler.toWrite htcnt
  have hwrite_lt := countAfter_lt s.handler.toWrite htcnt
  refine ⟨_, exec_edge_runs hf hc hl hv, by simp, by simp, by simp, ?_, by simp, by simp [pinAfter], by simp, by simp,
    ?_, ?_, ?_, fun rest hm hie hsrc => step_dispatch_after_edge hw hm hie hsrc⟩
  · rw [edgeSteps_tcnt, countAfter_eq _ htcnt, Nat.add_assoc]
  · exact fun h => matchesDuringEdge_pos_iff.2 (.inl ((matchesIn_pos_iff _ htcnt hcmp).2 h))
  · rw [← hwrite]
    exact fun h => matchesDuringEdge_pos_iff.2 (.inr (.inr ((matchesIn_pos_iff _ hwrite_lt (reArmAdd_lt _ _ _)).2 h)))
  · rw [← hwrite]
    exact fun hmow h => matchesDuringEdge_pos_iff.2 (.inr (.inl ⟨hmow, h⟩))

/-! The times of the matches (R152 to R155). -/

section
variable {cfg : Config}

theorem countAfter_eq_reArmAdd (n : Nat) {t : Nat} (h : t < cfg.period) : countAfter cfg n t = reArmAdd cfg t n :=
  countAfter_eq n h

/-- After a match at the compare value the next one is a full period away (R150). -/
theorem matchesIn_self {n P : Nat} (hP : P < cfg.period) (hn : n < cfg.period) : matchesIn cfg P n P = 0 := by
  have hto : ticksToMatch cfg P P = cfg.period := by simp [ticksToMatch]
  rw [matchesIn_short hP hP (by omega), if_pos (by omega)]

variable {h : HandlerTicks} {P T L d : Nat}

/-- The counter `d` ticks after an EDGE that was dispatched at `P + L`, by the ticks gone by since its write. -/
theorem counter_after_edge (hP : P < cfg.period) :
    countAfter cfg d (countAfter cfg (h.toWrite + h.toSignal) (countAfter cfg L P))
      = countAfter cfg (h.toSignal + d) (reArmAdd cfg P (L + h.toWrite)) := by
  rw [← countAfter_eq_reArmAdd _ hP]
  simp only [← countAfter_add, Nat.add_assoc]

/-- An EDGE dispatched `L` ticks after a match at `P`, and the `d` ticks after it: the matches, none of them on the old
compare value, are those its compare write leads to (R154). -/
theorem matches_of_edge_after (hP : P < cfg.period) (hT : T < cfg.period) (hL : L + h.toWrite < cfg.period)
    (hd : h.toSignal + d < writeToMatch cfg T (L + h.toWrite) + cfg.period) :
    matchesIn cfg P L P + matchesDuringEdge cfg h (countAfter cfg L P) P (reArmAdd cfg P T)
        + matchesIn cfg (reArmAdd cfg P T) d (countAfter cfg (h.toWrite + h.toSignal) (countAfter cfg L P))
      = if h.toSignal + d < writeToMatch cfg T (L + h.toWrite) then 0 else 1 := by
  have hold : matchesIn cfg P L P + matchesIn cfg P h.toWrite (countAfter cfg L P) = 0 := by
    rw [← matchesIn_add, matchesIn_self hP hL]
  have hnew := matches_from_write hP hT hL hd
  rw [matchesIn_add, ← countAfter_eq_reArmAdd _ hP, countAfter_add L] at hnew
  rw [← hnew, matchesDuringEdge, countAfter_add h.toWrite]
  omega

end

section
variable {s u : State} {rest : List Input}

/-- A run of one act and `d` ticks. -/
theorem run_act_ticks (d : Nat) (hst : step s = .next u) (hw : u.cfg.wf = true)
    (hi : u.inputs = List.replicate d .tick ++ rest) : core.run (1 + d) s = .next (ticked d rest u) := by
  rw [Nat.add_comm, run_succ_next d hst]
  exact run_ticked d hw hi

/-- The act is the foreground's read of the counter (R175). -/
theorem run_read_ticks (d : Nat) (hw : s.cfg.wf = true)
    (hi : s.inputs = .readCounter :: (List.replicate d .tick ++ rest)) :
    core.run (1 + d) s
      = .next (ticked d rest { beginCycle (List.replicate d .tick ++ rest) s with counterRead := some s.tcnt }) :=
  run_act_ticks d (step_cons hw hi) hw rfl

/-- The act is an ARM that passes its checks (R90). -/
theorem run_arm_ticks {now lead : Nat} (d : Nat) (hw : s.cfg.wf = true) (hf : s.fsm = .unarmed) (hie : s.ie = false)
    (hnow : now < s.cfg.period) (hlead : lead < s.cfg.period)
    (hi : s.inputs = present (encode (.arm now lead)) :: (List.replicate d .tick ++ rest)) :
    core.run (1 + d) s
      = .next (ticked d rest
          (armSteps (reArmAdd s.cfg now lead) (beginCycle (List.replicate d .tick ++ rest) s))) := by
  have hwf : (Instr.arm now lead).wf s.cfg.regWidth = true := by
    simpa only [Instr.wf, Bool.and_eq_true, decide_eq_true_eq] using ⟨hnow, hlead⟩
  have hst := (step_present hw hi (decodeEncodeAgree.1 _ _ hwf)).trans (exec_arm_arms now lead hf hie)
  exact run_act_ticks d hst (by simpa using hw) (by simp)

/-- The act is a dispatch that issues an EDGE (R140). -/
theorem run_edge_ticks {c l v : Nat} (d : Nat) (hw : s.cfg.wf = true) (hf : s.fsm = .armed) (hc : s.cursor = some c)
    (hl : s.last = some l) (hv : valueAt s.cfg c = some v) (hie : s.ie = true) (hsrc : s.srcEn = true)
    (hmf : s.mf = true) (hi : s.inputs = .dispatch :: (List.replicate d .tick ++ rest)) :
    core.run (1 + d) s
      = .next (ticked d rest (edgeSteps c l v (beginCycle (List.replicate d .tick ++ rest) s))) :=
  run_act_ticks d (step_dispatch_edge hw hi hf hc hl hv hie hsrc hmf) (by simpa using hw) (by simp)

end

/-- Settles O55: the run is ticks, an EDGE and ticks; its matches are counted by `matches_of_edge_after`. -/
theorem realisedEdgeTimes : Obligations.RealisedEdgeTimes := by
  rintro s c L _ d _ T rest hw ⟨hP, -⟩ hf hc hlt hl hcmp rfl hmf hie hsrc hTeq rfl hL hd hi
  have hv : valueAt s.cfg c = some T := hTeq ▸ valueAt_wf hw hlt
  have hT : T < s.cfg.period := hTeq ▸ (wf_entry hw hlt).2
  have hedge := run_edge_ticks d (s := ticked L _ s) (rest := rest) (by simpa using hw) (by simpa using hf)
    (by simpa using hc) (by simpa using hl) (by simpa using hv) (by simpa using hie) (by simpa using hsrc)
    (by simp [hmf]) (ticked_inputs ..)
  have hrun := (run_add (1 + d) (run_ticked L hw hi)).trans hedge
  rw [← Nat.add_assoc] at hrun
  refine ⟨_, hrun, by simp, by simp [reArmAdd], by simp [reArmAdd], ?_, fun heq => ?_, writeToMatch_cases s.cfg hL⟩
  · rw [← matches_of_edge_after hP hT hL hd]
    simp [hcmp, Nat.add_assoc]
  · simp [counter_after_edge hP, counter_meets hL heq]

/-- Settles O56: the run is the read, ticks, ARM and ticks; its matches from ARM on are those of
`matches_from_write`. -/
theorem firstEdgeTime : Obligations.FirstEdgeTime := by
  rintro s _ lead L0 d rest hw ⟨hnow, -⟩ hf hie rfl hlead hL hd hi
  have hcount := matches_from_write hnow hlead hL hd
  rw [← countAfter_eq_reArmAdd L0 hnow] at hcount
  refine ⟨_, _, run_read_ticks L0 hw hi, by simp,
    run_arm_ticks d (by simpa using hw) (by simpa using hf) (by simpa using hie) (by simpa using hnow)
      (by simpa using hlead) (ticked_inputs ..),
    by simp, by simp, by simp [reArmAdd], ?_, fun heq => ?_, writeToMatch_cases s.cfg hL⟩
  · rw [← hcount]
    simp [Nat.add_assoc]
  · simp [countAfter_eq_reArmAdd L0 hnow, counter_meets hL heq]

end Sys2Proof.Machine
end

section
/-! SUPPORT and proofs for the family of spec/70_reset_and_hazards.md: the reset transaction (R170), what the commands
do in `UNARMED` (R173), and the boot sequence with and without its acknowledge (R175, R176). -/

namespace Sys2Proof.Machine

/-! The reset (R170) and `UNARMED` (R173). -/

/-- A cycle with `rst_i` set is the reset transaction, whatever command it carries (R170, log 23). -/
theorem runInput_reset {p : PortCycle} (s : State) (h : p.rst = true) :
    runInput (.cycle p) s = .next (resetBlock s) := by
  simp [runInput, runCycle, h]

/-- Settles O2: the step begins its cycle, which takes the outputs and the schedule's head, and resets the block. -/
theorem resetTransaction : Obligations.ResetTransaction :=
  fun _ _ _ hw hi hrst => (step_cons hw hi).trans (runInput_reset _ hrst)

/-- Settles O21: the rules of the six commands at `FSM = UNARMED`, where `PEND` is 0 by the signal invariant. -/
theorem unarmedBehaviour : Obligations.UnarmedBehaviour := by
  rintro s ⟨-, -, hzero⟩ hf
  have hlive : Live s := .inl hf
  have hpend : s.pend = false := hzero hf
  refine ⟨exec_nop hlive, exec_sigclr hlive, ?_, ?_, fun now lead hie => ?_, fun now lead hie => ?_, ?_⟩
  · have hread := exec_sigrd hlive
    rwa [hpend] at hread
  · obtain ⟨-, -, hsigrc, -⟩ := sigrcRule
    rw [hsigrc s hlive, hpend]
  · exact ⟨_, exec_arm_arms now lead hf hie, armSteps_fsm ..⟩
  · exact ⟨_, exec_arm_ie now lead hf hie, rfl, rfl⟩
  · exact ⟨_, exec_edge_unarmed hlive (.inl hf), rfl, rfl⟩

/-! What else ARM leaves, and when its compare write matches at once if the foreground hands it the counter as it
stands (R153). -/

section
variable (t : Nat) (s : State)

@[simp] theorem armSteps_mf : (armSteps t s).mf = (s.mf || matchesOnWrite t s) := by rw [armSteps_eq]
@[simp] theorem armSteps_pin : (armSteps t s).pin = (s.pin ^^ (matchesOnWrite t s && s.toggleEn)) := by
  rw [armSteps_eq]
@[simp] theorem faultCodes_armSteps : faultCodes (armSteps t s).hist = faultCodes s.hist := by
  obtain ⟨e, hhist, -, hcodes⟩ := armSteps_hist s t
  rw [hhist, faultCodes_append, hcodes, List.append_nil]

/-- ARM reads neither the schedule nor the output ports, which is all that the start of a step writes. -/
theorem armSteps_beginCycle (more : List Input) :
    armSteps t (beginCycle more s)
      = { armSteps t s with out := { Outputs.idle with cmpWr := some t }, inputs := more } := by
  simp [armSteps_eq, matchesOnWrite, beginCycle]

end

/-- A lead below one period leads back to the counter only if it is 0. -/
theorem beq_reArmAdd_self {cfg : Config} {t lead : Nat} (ht : t < cfg.period) (hlead : lead < cfg.period) :
    (t == reArmAdd cfg t lead) = decide (lead = 0) := by
  have hself : reArmAdd cfg t 0 = t := Nat.mod_eq_of_lt ht
  have hiff := offset_inj (T := lead) ht hlead (period_pos cfg)
  rw [hself] at hiff
  rw [Bool.eq_iff_iff, beq_iff_eq, decide_eq_true_eq, hiff]

/-! The parts of a boot without a tick (R175, logs 24 and 25), each from any state. -/

/-- The platform after `disable_interrupts()`, `enable_output_toggle_on_match()` and `install_interrupt_handler()`. -/
def withPlatformSet (s : State) : State := { s with ie := false, toggleEn := true, srcEn := true }

/-- The same after the acknowledge and the read of the counter, the last two acts before ARM. -/
def readyToArm (s : State) : State := { withPlatformSet s with mf := false, counterRead := some s.tcnt }

/-- The state after an ARM for the time `p` and `enable_interrupts()`. -/
def armedAndEnabled (p : Nat) (rest : List Input) (s : State) : State :=
  { armSteps p s with ie := true, out := Outputs.idle, inputs := rest }

section
variable {s : State} {rest : List Input}

theorem run_platformSet (k : Nat) (hw : s.cfg.wf = true)
    (hi : s.inputs = .setIe false :: .enableToggle :: .installHandler :: rest) :
    core.run (k + 3) s = core.run k (withPlatformSet (beginCycle rest s)) := by
  calc core.run (k + 3) s
      = core.run (k + 2) { beginCycle (.enableToggle :: .installHandler :: rest) s with ie := false } :=
        run_cons _ hw hi rfl
    _ = core.run (k + 1) { beginCycle (.installHandler :: rest) s with ie := false, toggleEn := true } :=
        run_cons _ hw rfl rfl
    _ = core.run k (withPlatformSet (beginCycle rest s)) := run_cons _ hw rfl rfl

theorem run_readyToArm (k : Nat) (hw : s.cfg.wf = true)
    (hi : s.inputs = .setIe false :: .enableToggle :: .installHandler :: .ackMatchFlag :: .readCounter :: rest) :
    core.run (k + 5) s = core.run k (readyToArm (beginCycle rest s)) := by
  calc core.run (k + 5) s
      = core.run (k + 2) (withPlatformSet (beginCycle (.ackMatchFlag :: .readCounter :: rest) s)) :=
        run_platformSet _ hw hi
    _ = core.run (k + 1) { withPlatformSet (beginCycle (.readCounter :: rest) s) with mf := false } :=
        run_cons _ hw rfl rfl
    _ = core.run k (readyToArm (beginCycle rest s)) := run_cons _ hw rfl rfl

theorem run_armedAndEnabled {now lead : Nat} (k : Nat) (hw : s.cfg.wf = true) (hf : s.fsm = .unarmed)
    (hie : s.ie = false) (hnow : now < s.cfg.period) (hlead : lead < s.cfg.period)
    (hi : s.inputs = present (encode (.arm now lead)) :: .setIe true :: rest) :
    core.run (k + 2) s = core.run k (armedAndEnabled (reArmAdd s.cfg now lead) rest s) := by
  have hwf : (Instr.arm now lead).wf s.cfg.regWidth = true := by
    simpa only [Instr.wf, Bool.and_eq_true, decide_eq_true_eq] using ⟨hnow, hlead⟩
  have harm := (step_present hw hi (decodeEncodeAgree.1 _ _ hwf)).trans (exec_arm_arms now lead hf hie)
  rw [beginCycle_cfg, armSteps_beginCycle] at harm
  exact (run_succ_next (k + 1) harm).trans (run_cons k (by simpa using hw) rfl rfl)

/-- A dispatch right after a boot that left `MF` 1 runs an EDGE at cursor 0 (R140, R176). -/
theorem step_dispatch_armedAndEnabled {p v : Nat} (hw : s.cfg.wf = true) (hsrc : s.srcEn = true) (hmf : s.mf = true)
    (hv : valueAt s.cfg 0 = some v) :
    step (armedAndEnabled p (.dispatch :: rest) s) = .next (edgeSteps 0 p v (armedAndEnabled p rest s)) := by
  refine step_dispatch_edge (s := armedAndEnabled p (.dispatch :: rest) s) (c := 0) (l := p)
    ?_ rfl ?_ ?_ ?_ ?_ rfl ?_ ?_
  all_goals simp [armedAndEnabled, hw, hsrc, hmf, hv]

end

theorem launch_tcnt_lt {cfg : Config} {l : Launch} (h : l.wf cfg = true) : l.tcnt < cfg.period := (wordInv_launch h).1

/-- Settles O57: the first five acts lead to `readyToArm`, with `MF` 0 and `IE` 0; ARM of the counter as it stands then
passes its checks, and matches at once only for the lead 0. -/
theorem bootArms : Obligations.BootArms := by
  intro cfg l lead P rest hw hl hlead hP
  obtain rfl : P = reArmAdd cfg l.tcnt lead := hP
  have htcnt := launch_tcnt_lt hl
  refine ⟨_, (run_readyToArm 2 hw rfl).trans (run_armedAndEnabled 0 hw rfl rfl htcnt hlead rfl), ?_⟩
  simp [armedAndEnabled, readyToArm, withPlatformSet, State.launch, NoFaulted, matchesOnWrite,
    beq_reArmAdd_self htcnt hlead]

/-- Settles O58: the first three calls leave the stale match, so the boot's dispatch runs an EDGE at cursor 0, and no
match falls in ARM or in that EDGE; the word of the early ARM decodes whatever its operands are. -/
theorem staleMatchLosesFirstEdge : Obligations.StaleMatchLosesFirstEdge := by
  refine ⟨?_, fun cfg l now lead rest hw hie => ?_⟩
  · intro cfg l h lead v P0 P1 rest hw hl hlead hmf hv hP0 hP1 hmow hnone
    obtain rfl : P0 = reArmAdd cfg l.tcnt lead := hP0
    obtain rfl : P1 = reArmAdd cfg (reArmAdd cfg l.tcnt lead) v := hP1
    have htcnt := launch_tcnt_lt hl
    have hwrite : (cfg.matchOnWrite && decide (lead = 0)) = false := by simpa [imp_iff_not_or] using hmow
    refine ⟨_, (run_platformSet 3 hw rfl).trans <| (run_armedAndEnabled 1 hw rfl rfl htcnt hlead rfl).trans <|
      run_succ_next 0 (step_dispatch_armedAndEnabled hw rfl hmf hv), ?_⟩
    simp [armedAndEnabled, withPlatformSet, State.launch, matchesOnWrite, beq_reArmAdd_self htcnt hlead, hwrite,
      hnone, countAfter_eq _ htcnt, Nat.add_assoc]
  · have hd := decode_of_cmd (w := cfg.regWidth) (encode_cmd (.arm now lead))
    exact ⟨_, (step_present hw rfl hd).trans (exec_arm_ie _ _ rfl hie), rfl, rfl⟩

end Sys2Proof.Machine
end
